-- ==== Sys2Proof/Word.lean ====
section
/-! DEFINITION. The bit-vector types of the core: a byte, an address, a port number, a command word
(00_scope.md R8, 20_memory.md R52, 30_encoding.md R80). -/

namespace Sys2Proof

/-- A byte is 8 bits (R8). -/
abbrev Byte := BitVec 8

/-- A 32-bit physical address or register value (R6 `ADDR_BITS`, R52). -/
abbrev Word32 := BitVec 32

/-- A 16-bit output-port number (R52). -/
abbrev PortNum := BitVec 16

/-- One 128-bit command word `CW[127:0]` (R80). -/
abbrev CommandWord := BitVec 128

end Sys2Proof
end

