-- ==== Sys2Proof/Config.lean ====
section
/-! DEFINITION. The implementation parameters of 00_scope.md R6, the admission rule R7, and the one free
value of the model: the launch draw of memory (10_state.md R26 to R28). -/

namespace Sys2Proof.Config

/-- `GDT_ENTRIES` (R6). -/
abbrev gdtEntries : Nat := 5

/-- `DESC_BYTES` (R6). -/
abbrev descBytes : Nat := 8

/-- `GDT_BYTES` = `GDT_ENTRIES * DESC_BYTES` (R6). -/
abbrev gdtBytes : Nat := 40

/-- `GDT_SIZE_FIELD` = `GDT_BYTES - 1` (R6). -/
abbrev gdtSizeField : BitVec 16 := 0x0027#16

/-- `PTR_BYTES` (R6). -/
abbrev ptrBytes : Nat := 6

/-- `FB_BASE` (R6, R57). -/
abbrev fbBase : Nat := 0xB8000

/-- `FB_WIDTH` (R6). -/
abbrev fbWidth : Nat := 80

/-- `FB_HEIGHT` (R6). -/
abbrev fbHeight : Nat := 25

/-- `CELL_BYTES` (R6). -/
abbrev cellBytes : Nat := 2

/-- One text row in bytes: `FB_WIDTH * CELL_BYTES` (R96). -/
abbrev rowBytes : Nat := 160

/-- The bytes of the grid: `FB_WIDTH * FB_HEIGHT * CELL_BYTES` (R6, R28). -/
abbrev gridBytes : Nat := 4000

/-- `CURSOR_CMD_PORT` (R6). -/
abbrev cursorCmdPort : PortNum := 0x3D4#16

/-- `CURSOR_DATA_PORT` (R6). -/
abbrev cursorDataPort : PortNum := 0x3D5#16

/-- `CURSOR_HIGH_CMD` (R6). -/
abbrev cursorHighCmd : Byte := 14#8

/-- `CURSOR_LOW_CMD` (R6). -/
abbrev cursorLowCmd : Byte := 15#8

/-- The number of byte addresses, `2^ADDR_BITS` (R6, R52). -/
abbrev addrSpace : Nat := 4294967296

/-- The parameters a launch fixes and no command changes (R6, R35). `tableBase` and `ptrBase` are OPEN (no
default); the others carry the spec's default: the framebuffer's size (`FB_SIZE`, D10, U25), the initial position
(D17), the clear character and colours (D12, D29), and the access bytes and flags of the installed table (R127, D28,
U25). DESIGN CHOICE, log entry 1. -/
structure Params where
  tableBase : Word32
  ptrBase   : Word32
  fbSize    : Word32 := 4000#32
  initRow   : Word32 := 5#32
  initCol   : Word32 := 0#32
  clearChar : Byte := 0x20#8
  clearFg   : BitVec 4 := 15#4
  clearBg   : BitVec 4 := 0#4
  accKCode  : Byte := 0x9A#8
  accKData  : Byte := 0x92#8
  accUCode  : Byte := 0xFA#8
  accUData  : Byte := 0xF2#8
  flgFlat   : BitVec 4 := 0xC#4
  deriving DecidableEq, Repr

/-- `[a, a+m)` and `[b, b+n)` share no address (R7). -/
abbrev Apart (a m b n : Nat) : Prop := a + m ≤ b ∨ b + n ≤ a

/-- The framebuffer holds every cell of the grid (R28), as the bounds of R155 and R157 and the precondition of R151
need. DEDUCED, log entry 18. -/
abbrev Params.GridFits (p : Params) : Prop := gridBytes ≤ p.fbSize.toNat

/-- R7: the three core-owned regions are pairwise disjoint and inside the address space, and the initial
position is on the grid; and the grid fits the framebuffer (log entry 18). -/
abbrev Params.Admitted (p : Params) : Prop :=
  p.tableBase.toNat + gdtBytes ≤ addrSpace ∧
  p.ptrBase.toNat + ptrBytes ≤ addrSpace ∧
  fbBase + p.fbSize.toNat ≤ addrSpace ∧
  Apart p.tableBase.toNat gdtBytes p.ptrBase.toNat ptrBytes ∧
  Apart p.tableBase.toNat gdtBytes fbBase p.fbSize.toNat ∧
  Apart p.ptrBase.toNat ptrBytes fbBase p.fbSize.toNat ∧
  p.initRow.toNat < fbHeight ∧ p.initCol.toNat < fbWidth ∧ p.GridFits

/-- The parameters that U25 gives a default stand at that default (`TABLE_BASE`, `PTR_BASE` and the initial
position stay free). -/
abbrev Params.SpecValues (p : Params) : Prop :=
  p.fbSize = 4000#32 ∧ p.clearChar = 0x20#8 ∧ p.clearFg = 15#4 ∧ p.clearBg = 0#4 ∧
  p.accKCode = 0x9A#8 ∧ p.accKData = 0x92#8 ∧ p.accUCode = 0xFA#8 ∧ p.accUData = 0xF2#8 ∧ p.flgFlat = 0xC#4

/-- The table at `TABLE_BASE` holds the address `a` (R26). -/
abbrev Params.InTable (p : Params) (a : Nat) : Prop :=
  p.tableBase.toNat ≤ a ∧ a < p.tableBase.toNat + gdtBytes

/-- The pointer record at `PTR_BASE` holds the address `a` (R27). -/
abbrev Params.InPointer (p : Params) (a : Nat) : Prop :=
  p.ptrBase.toNat ≤ a ∧ a < p.ptrBase.toNat + ptrBytes

/-- The framebuffer holds the address `a` (R28). -/
abbrev Params.InFramebuffer (p : Params) (a : Nat) : Prop := fbBase ≤ a ∧ a < fbBase + p.fbSize.toNat

/-- `a` lies in one of the three core-owned regions (R26 to R28). -/
abbrev Params.Owned (p : Params) (a : Nat) : Prop := p.InTable a ∨ p.InPointer a ∨ p.InFramebuffer a

/-- FREE VALUE (DESIGN CHOICE, log entry 2): the byte the launch draw put at a core-owned address that no command has written
since (R26, R27, R28, U14): some byte the spec does not know, fixed at launch. No body: nothing can be proved
of it, so a claim holds for every draw. -/
opaque launchByte : Nat → Byte

end Sys2Proof.Config
end

