-- ==== Sys2Proof/Syntax.lean ====
section
/-! DEFINITION. The eight commands of spec/opcode_table.json (30_encoding.md R81), each operand at the width
its format gives it (R82 to R87, R100). -/

namespace Sys2Proof

/-- One constructor per row of spec/opcode_table.json. Every field is unsigned and has the width of its
field in the command word, so every value the encoding admits can be written and no other (R100). -/
inductive Instr where
  /-- `ENCODE idx, base, limit, access, flags` (format D, OP 0x1; R82, R122). -/
  | encode (idx : BitVec 3) (base : Word32) (limit : BitVec 20) (access : Byte) (flags : BitVec 4)
  /-- `INSTALL` (format N, OP 0x2; R83, R126). -/
  | install
  /-- `WRITE_CELL off, ch, fg, bg` (format C, OP 0x3; R84, R152). -/
  | writeCell (off : Word32) (ch : Byte) (fg bg : BitVec 4)
  /-- `MOVE_CURSOR pos` (format P, OP 0x4; R85, R154). -/
  | moveCursor (pos : BitVec 16)
  /-- `WRITE_STRING buf, len, fg, bg` (format S, OP 0x5; R86, R159). -/
  | writeString (buf len : Word32) (fg bg : BitVec 4)
  /-- `SCROLL` (format N, OP 0x6; R83, R156). -/
  | scroll
  /-- `CLEAR_LINE row` (format R, OP 0x7; R87, R158). -/
  | clearLine (row : Word32)
  /-- `DECODE idx` (format D, OP 0x8; R82, R124). -/
  | decode (idx : BitVec 3)
  deriving DecidableEq, Repr

end Sys2Proof
end

