-- ==== Sys2Proof/WellFormed.lean ====
section
/-! DEFINITION. The caller's contract that can be told from the command word alone (60_exceptions.md R202,
93_implementation_defined.md U1, U8, U10, U12), under the parameters of the launch. A command that breaks it still
decodes and still runs: it takes the fault its rule names. -/

namespace Sys2Proof

open Sys2Proof.Config

/-- The operands of the command meet the checks its rule makes on the word alone: the descriptor index of
ENCODE and DECODE is 0..4 (R122, R124), WRITE_CELL's offset is not the framebuffer's last byte (R152), CLEAR_LINE's row is on
the grid (R158), and WRITE_STRING's buffer does not run past 0xFFFFFFFF (R159). -/
def Instr.wellFormed (p : Params) : Instr → Bool
  | .encode idx _ _ _ _      => decide (idx.toNat < gdtEntries)
  | .install                 => true
  | .writeCell off _ _ _     => decide (off.toNat + 1 ≠ p.fbSize.toNat)
  | .moveCursor _            => true
  | .writeString buf len _ _ => decide (buf.toNat + len.toNat ≤ addrSpace)
  | .scroll                  => true
  | .clearLine row           => decide (row.toNat < fbHeight)
  | .decode idx              => decide (idx.toNat < gdtEntries)

end Sys2Proof
end

