-- ==== Sys2Proof/Decode.lean ====
section
/-! DEFINITION. The byte order of a transfer, the decoder of command words, total and rejecting by name, and
the encoder written from the same formats (30_encoding.md R80 to R89, R100). -/

namespace Sys2Proof

/-! ## Byte order (20_memory.md R50, 30_encoding.md R80) -/

/-- The `n` bytes of `v`, least significant first: what `MemWrite(addr, n, v)` writes at rising addresses, and
byte `j` of a transfer, `CW[8j+7:8j]` (R10, R50, R80). -/
def leBytes : (n : Nat) → (v : Nat) → List Byte
  | 0, _     => []
  | n + 1, v => BitVec.ofNat 8 v :: leBytes n (v / 256)

/-- The number whose little-endian bytes are `bs` (R50). -/
def leNat : List Byte → Nat
  | []      => 0
  | b :: bs => b.toNat + 256 * leNat bs

/-! ## The command word's fields -/

/-- `CW[lo+n-1 : lo]` as an unsigned field of `n` bits (R8, R100). -/
def field (w : CommandWord) (lo n : Nat) : BitVec n := w.extractLsb' lo n

/-- The reserved bits of each command (R88); the bits of `mask` above OP in spec/opcode_table.json. -/
def reservedMask : Instr → CommandWord
  | .encode ..      => 0xFFFFFFFF00000000FFF00000FFF00080#128
  | .install        => 0xFFFFFFFFFFFFFFFFFFFFFFFFFFFFFFF0#128
  | .writeCell ..   => 0xFFFFFFFFFFFFFFFF00000000FF0000F0#128
  | .moveCursor _   => 0xFFFFFFFFFFFFFFFFFFFF0000FFFFFFF0#128
  | .writeString .. => 0xFFFFFFFF0000000000000000FFFF00F0#128
  | .scroll         => 0xFFFFFFFFFFFFFFFFFFFFFFFFFFFFFFF0#128
  | .clearLine _    => 0xFFFFFFFFFFFFFFFF00000000FFFFFFF0#128
  | .decode _       => 0xFFFFFFFFFFFFFFFFFFFFFFFFFFFFFF80#128

/-- The opcode field `OP = CW[3:0]` (R81). -/
def opcode (w : CommandWord) : BitVec 4 := field w 0 4

/-- The command an assigned opcode names, its operands taken from their fields (R81 to R87, R100); nothing for
0x0 and 0x9 to 0xF. -/
def operands (w : CommandWord) : Option Instr :=
  match (opcode w).toNat with
  | 1 => some (.encode (field w 4 3) (field w 64 32) (field w 32 20) (field w 8 8) (field w 16 4))
  | 2 => some .install
  | 3 => some (.writeCell (field w 32 32) (field w 16 8) (field w 12 4) (field w 8 4))
  | 4 => some (.moveCursor (field w 32 16))
  | 5 => some (.writeString (field w 64 32) (field w 32 32) (field w 12 4) (field w 8 4))
  | 6 => some .scroll
  | 7 => some (.clearLine (field w 32 32))
  | 8 => some (.decode (field w 4 3))
  | _ => none

/-- Why sixteen bytes are no command (R88), or why bytes are not one transfer (R80). -/
inductive Reject where
  /-- OP is 0x0 or 0x9..0xF (R88). -/
  | illegalCommand
  /-- A reserved bit of the command's format is 1 (R88). -/
  | reservedBits
  /-- The bytes are not exactly sixteen (R80: "a decoder takes exactly 16 bytes per command"). -/
  | notOneWord
  deriving DecidableEq, Repr

/-- The decode procedure R89: the opcode first, then the reserved bits. -/
def decodeWord (w : CommandWord) : Except Reject Instr :=
  match operands w with
  | none   => .error .illegalCommand
  | some i => if w &&& reservedMask i = 0#128 then .ok i else .error .reservedBits

/-- The decoder on any bytes: sixteen of them, little-endian, are one command word (R80). -/
def decodeBytes (bs : List Byte) : Except Reject Instr :=
  if bs.length = 16 then decodeWord (BitVec.ofNat 128 (leNat bs)) else .error .notOneWord

/-- The transfer of a command word: byte `j` is `CW[8j+7:8j]` (R80). -/
def transfer (w : CommandWord) : List Byte := leBytes 16 w.toNat

/-- What the decoder reads from the opcode table's number `w` of `nbits` bits (the bits above are 0). -/
def decodeTableWord (nbits w : Nat) : Option Instr :=
  match decodeBytes (leBytes 16 (w % 2 ^ nbits)) with
  | .ok i    => some i
  | .error _ => none

/-! ## The encoder -/

/-- The command word of a command: the fields of its format from bit 127 down, reserved bits 0 (R82 to R87). -/
def encode : Instr → CommandWord
  | .encode idx base limit access flags =>
    (0#32 ++ base ++ 0#12 ++ limit ++ 0#12 ++ flags ++ access ++ 0#1 ++ idx ++ 0x1#4 : BitVec 128)
  | .install => 0x2#128
  | .writeCell off ch fg bg => (0#64 ++ off ++ 0#8 ++ ch ++ fg ++ bg ++ 0#4 ++ 0x3#4 : BitVec 128)
  | .moveCursor pos => (0#80 ++ pos ++ 0#28 ++ 0x4#4 : BitVec 128)
  | .writeString buf len fg bg => (0#32 ++ buf ++ len ++ 0#16 ++ fg ++ bg ++ 0#4 ++ 0x5#4 : BitVec 128)
  | .scroll => 0x6#128
  | .clearLine row => (0#64 ++ row ++ 0#28 ++ 0x7#4 : BitVec 128)
  | .decode idx => (0#121 ++ idx ++ 0x8#4 : BitVec 128)

end Sys2Proof
end

