-- ==== Sys2Proof/Machine/State.lean ====
section
/-! DEFINITION. Everything the spec gives the machine, as plain data (10_state.md R20), the moves of its
environment, what can stop a step, and the state after reset (70_reset_and_hazards.md R240). -/

namespace Sys2Proof.Machine

open Sys2Proof.Config

/-- Why a command faults: the cause codes of R202 but `NONE`. The codes are `Cause.code` (Flags.lean). -/
inductive Cause where
  | illegalCommand | reservedBits | badIndex | tableLocked | reinstall | cellOverrun | rowRange | bufferRange
  deriving DecidableEq, Repr

/-- The fields of one segment descriptor (R90, R123), and of `RESP` (R25). -/
structure Descriptor where
  base   : Word32
  limit  : BitVec 20
  access : Byte
  flags  : BitVec 4
  deriving DecidableEq, Repr

/-- An event of the trace (R30). -/
inductive Event where
  /-- One output-port write (R10). -/
  | port (port : PortNum) (byte : Byte)
  /-- The request that the external table-load primitive load the table (R131). -/
  | tableLoad (size : BitVec 16) (address : Word32)
  /-- A write-cell call discarded by the bounds guard (R151). -/
  | cellDiscard (offset : Word32)
  deriving DecidableEq, Repr

/-- The four entries of the installed table that a processor loads (R64, R127). -/
inductive LoadedEntry where
  | kernelCode | kernelData | userCode | userData
  deriving DecidableEq, Repr

/-- A move of the environment, between two commands (R60). -/
inductive Input where
  /-- The host presents one command: the bytes of its transfer, lowest first (R3, R80, R213). -/
  | command (bytes : List Byte)
  /-- The host places a byte in its own memory (R31, R213). -/
  | hostByte (address : Word32) (byte : Byte)
  /-- The processor sets the accessed bit of one entry (R64). -/
  | accessed (entry : LoadedEntry)
  /-- The host reads `RESP` (R25, R213). -/
  | readResp
  /-- The host reads a byte of memory, `TBL`, `PTR` and `FB` included (R213). -/
  | readMemory (address : Word32)
  deriving DecidableEq, Repr

/-- What the host's last read, of `RESP` or of a byte of memory, gave it (R25, R213): the reader's side, no register of
the core. -/
inductive HostRead where
  /-- The host has read nothing since launch. -/
  | notYet
  /-- `RESP` was valid: its record. -/
  | record (d : Descriptor)
  /-- `RESP` was not valid: "a fault of the reader (the model gives it no value)" (R25). The core goes on. -/
  | readerFault
  /-- What memory held at the address: a byte, or no value where the host placed none in its own memory (R31). -/
  | memory (value : Option Byte)
  deriving DecidableEq, Repr

/-- Bytes of physical memory by address, addresses strictly rising. An unlisted address holds NO VALUE here:
outside the core-owned regions that is the spec's own state of `HOST_MEM` (R31); inside them the byte is the
launch draw's (`coreByte` in Ops.lean; DESIGN CHOICE, log entry 2). -/
abbrev Memory := List Host.Cell

/-- The canonical form: addresses strictly rising and below 2^32 (R52). -/
abbrev Memory.wf (m : Memory) : Prop :=
  m.Pairwise (fun c d => c.1 < d.1) ∧ ∀ c ∈ m, c.1 < addrSpace

/-- The machine. `cfg` is the launch's and no command changes it (R35); `inputs` and `hostRead` are the model's own:
what the environment does next, in order, and what it last read (DESIGN CHOICE, log entries 7 and 17). -/
@[ext]
structure State where
  /-- The parameters of the launch (R6). -/
  cfg : Params
  /-- `ROW` (R21). -/
  row : Word32
  /-- `COL` (R22). -/
  col : Word32
  /-- `INSTALLED` (R23). -/
  installed : Bool
  /-- `FAULT` (R24): a cause code of R202, 0 for none. -/
  fault : BitVec 4
  /-- The faulting command word, the fault's line, kept beside `FAULT` (R202; DESIGN CHOICE, log entry 9). -/
  faultLine : Option CommandWord
  /-- `RESP` (R25): `none` is `valid = 0`, whose fields hold no value (DEDUCED, log entry 3). -/
  resp : Option Descriptor
  /-- Physical memory: `TBL`, `PTR`, `FB` and `HOST_MEM` (R26, R27, R28, R31). -/
  mem : Memory
  /-- The trace, oldest event first (R30). -/
  trace : List Event
  /-- `CRTC_INDEX` of the external cursor controller (R32). -/
  crtcIndex : Byte
  /-- `CURSOR_HIGH` (R32). -/
  cursorHigh : Byte
  /-- `CURSOR_LOW` (R32). -/
  cursorLow : Byte
  /-- The environment's moves still to come. -/
  inputs : List Input
  /-- What the host's last read gave it. -/
  hostRead : HostRead
  deriving DecidableEq, Repr

/-- What stops a step for good: nothing. Every fault the spec gives is a next state: the core's own causes set `FAULT`
(R201), and a read of `RESP` without a value is the reader's (R25). Nobody raises one. Safe. -/
inductive Fault where
  deriving DecidableEq, Repr

/-- Why a step has no meaning. -/
inductive Refusal where
  /-- An instruction of the table without a meaning yet; no arm of `exec` answers it. Safe. -/
  | notModelled (mnemonic : String)
  /-- Raised by `step` in a state whose parameters are not admitted (R7, log entry 18): "A configuration that breaks
  any of these is refused by the model (it has no launch state)". Safe. -/
  | configurationNotAdmitted
  /-- Raised by `step` on a transfer that is not sixteen bytes: the interface has no such move (R80). Safe. -/
  | notOneTransfer
  /-- Raised by `step` when the host would place a byte in a core-owned region: no such move (R53, U23). Safe. -/
  | hostMoveForbidden
  /-- Raised by `step` when the processor would set an accessed bit before TABLE_LOAD: no such move (R64). Safe. -/
  | processorMoveForbidden
  deriving DecidableEq, Repr

/-- What a launch is given: the parameters (R6), the bytes in memory (the host's, R31, and any part of the
launch draw that is known, R26 to R28), and the cursor controller's registers, which the spec leaves
unspecified at reset (R32, R240, U15). -/
structure Launch where
  params     : Params
  mem        : Memory
  crtcIndex  : Byte
  cursorHigh : Byte
  cursorLow  : Byte
  deriving DecidableEq, Repr

/-- The reset state of a launch (R240). -/
def Launch.resetState (l : Launch) : State :=
  { cfg := l.params, row := l.params.initRow, col := l.params.initCol, installed := false, fault := 0#4,
    faultLine := none, resp := none, mem := l.mem, trace := [], crtcIndex := l.crtcIndex,
    cursorHigh := l.cursorHigh, cursorLow := l.cursorLow, inputs := [],
    hostRead := .notYet }

/-- A launch: its reset state, or none where the configuration is refused ("it has no launch state", R7; log entry 18). -/
def State.launch (l : Launch) : Option State :=
  if l.params.Admitted then some l.resetState else none

/-- DESIGN CHOICE: the launch of `State.reset`: the OPEN bases are those of 95_test_vectors.md's launch (log entry 6), no byte is
placed in memory (log entry 4), and the cursor controller's registers are 0 (log entry 5). -/
def Launch.ofVectors : Launch :=
  { params := { tableBase := 0x00101000#32, ptrBase := 0x00101040#32 }, mem := [], crtcIndex := 0#8,
    cursorHigh := 0#8, cursorLow := 0#8 }

/-- The machine right after reset (R240, R241). -/
def State.reset : State := Launch.ofVectors.resetState

end Sys2Proof.Machine
end

