-- ==== Sys2Proof/Machine/Flags.lean ====
section
/-! DEFINITION. The core has no condition codes (10_state.md R34). Its two flags are `INSTALLED` (R23) and `FAULT`
(R24): here are the cause codes `FAULT` holds (60_exceptions.md R202). -/

namespace Sys2Proof.Machine

/-- The 4-bit value of `FAULT` for each cause (R202); codes 9 to 15 are never raised. -/
def Cause.code : Cause → BitVec 4
  | .illegalCommand => 1#4
  | .reservedBits   => 2#4
  | .badIndex       => 3#4
  | .tableLocked    => 4#4
  | .reinstall      => 5#4
  | .cellOverrun    => 6#4
  | .rowRange       => 7#4
  | .bufferRange    => 8#4

/-- The cause an undecodable command word raises (R88, R203). Bytes that are no transfer raise none. -/
def rejectCause : Reject → Option Cause
  | .illegalCommand => some .illegalCommand
  | .reservedBits   => some .reservedBits
  | .notOneWord     => none

end Sys2Proof.Machine
end

