-- ==== Sys2Proof/Machine/Operands.lean ====
section
/-! DEFINITION. The data formats and operand computations of 30_encoding.md part B: the descriptor (R90 to R94),
the pointer record (R95), the cell and its address (R96, R97), the linear position (R98) and the byte codes of
the console (R103). Addresses are exact natural numbers (00_scope.md R9). -/

namespace Sys2Proof.Machine

open Sys2Proof.Config

/-! ## Descriptors

The byte and bit positions are the spec's, which marks them as general knowledge (PRESUMED, log entry 12). -/

/-- The address of entry `n` of the table, `TABLE_BASE + 8*n` (R26, R121). -/
def entryAddress (p : Params) (n : Nat) : Nat := p.tableBase.toNat + descBytes * n

/-- The eight bytes of a descriptor, byte 0 first (R90). -/
def descriptorBytes (d : Descriptor) : List Byte :=
  [ d.limit.extractLsb' 0 8, d.limit.extractLsb' 8 8,
    d.base.extractLsb' 0 8, d.base.extractLsb' 8 8, d.base.extractLsb' 16 8,
    d.access,
    d.flags ++ d.limit.extractLsb' 16 4,
    d.base.extractLsb' 24 8 ]

/-- The descriptor that eight bytes hold, byte 0 first (R123). -/
def descriptorOf (b0 b1 b2 b3 b4 b5 b6 b7 : Byte) : Descriptor :=
  { base   := b7 ++ b4 ++ b3 ++ b2
    limit  := b6.extractLsb' 0 4 ++ b1 ++ b0
    access := b5
    flags  := b6.extractLsb' 4 4 }

/-- The null descriptor: all fields zero (R94). -/
def nullDescriptor : Descriptor := { base := 0#32, limit := 0#20, access := 0#8, flags := 0#4 }

/-- A descriptor of the flat model: base 0, limit 0xFFFFF (R59, R127). -/
def flatDescriptor (access : Byte) (flags : BitVec 4) : Descriptor :=
  { base := 0#32, limit := 0xFFFFF#20, access := access, flags := flags }

/-- The index of an entry the processor loads: kernel code 1, kernel data 2, user code 3, user data 4 (R127). -/
def LoadedEntry.index : LoadedEntry → Nat
  | .kernelCode => 1
  | .kernelData => 2
  | .userCode   => 3
  | .userData   => 4

/-- The access byte INSTALL gives each loaded entry (R127). -/
def LoadedEntry.access (p : Params) : LoadedEntry → Byte
  | .kernelCode => p.accKCode
  | .kernelData => p.accKData
  | .userCode   => p.accUCode
  | .userData   => p.accUData

/-- The descriptor INSTALL writes for a loaded entry (R126, R127). -/
def installedDescriptor (p : Params) (e : LoadedEntry) : Descriptor := flatDescriptor (e.access p) p.flgFlat

/-- The bytes of the whole installed table, entry 0 first (R127). -/
def installedTable (p : Params) : List Byte :=
  descriptorBytes nullDescriptor ++ descriptorBytes (installedDescriptor p .kernelCode) ++
  descriptorBytes (installedDescriptor p .kernelData) ++ descriptorBytes (installedDescriptor p .userCode) ++
  descriptorBytes (installedDescriptor p .userData)

/-- The six bytes of the pointer record: the size, then the table's address (R95, R128). -/
def pointerRecord (p : Params) : List Byte :=
  leBytes 2 gdtSizeField.toNat ++ leBytes 4 p.tableBase.toNat

/-- The bits of an access byte (R92). -/
def Descriptor.present (d : Descriptor) : Bool := d.access.getLsbD 7
/-- `DPL`, the ring (R92). -/
def Descriptor.ring (d : Descriptor) : BitVec 2 := d.access.extractLsb' 5 2
/-- `S`: code or data (R92). -/
def Descriptor.codeOrData (d : Descriptor) : Bool := d.access.getLsbD 4
/-- `E`: executable (R92). -/
def Descriptor.executable (d : Descriptor) : Bool := d.access.getLsbD 3
/-- `DC`: direction or conforming (R92). -/
def Descriptor.conforming (d : Descriptor) : Bool := d.access.getLsbD 2
/-- `RW`: readable or writable (R92). -/
def Descriptor.readWrite (d : Descriptor) : Bool := d.access.getLsbD 1
/-- `A`: accessed (R92, R64). -/
def Descriptor.accessed (d : Descriptor) : Bool := d.access.getLsbD 0
/-- `G`: granularity (R93). -/
def Descriptor.granular (d : Descriptor) : Bool := d.flags.getLsbD 3
/-- `D/B`: default operation size (R93). -/
def Descriptor.size32 (d : Descriptor) : Bool := d.flags.getLsbD 2

/-- The limit unit: 1 byte, or 4 KiB where `G` is set (R58). -/
def Descriptor.unit (d : Descriptor) : Nat := if d.granular then 4096 else 1

/-- The last valid offset of the segment, `(limit + 1) * unit - 1` (R58). -/
def Descriptor.lastOffset (d : Descriptor) : Nat := (d.limit.toNat + 1) * d.unit - 1

/-! ## Cells and positions -/

/-- The attribute byte: foreground in bits 7:4, background in bits 3:0 (R97, C2). -/
def attrByte (fg bg : BitVec 4) : Byte := fg ++ bg

/-- The linear position of a cell, `row*FB_WIDTH + col` (R98). -/
def linearPos (row col : Nat) : Nat := row * fbWidth + col

/-- The framebuffer offset of a cell's character byte (R96). -/
def cellOffset (row col : Nat) : Nat := cellBytes * linearPos row col

/-! ## The console's bytes -/

/-- The line-break bytes 0x0A, 0x0D and 0x00 (R103, R161). -/
def isBreak (b : Byte) : Bool := b == 0x0A#8 || b == 0x0D#8 || b == 0x00#8

/-- The two-byte line breaks: CR LF and LF CR (R162, D13). -/
def isPair (b n : Byte) : Bool := (b == 0x0D#8 && n == 0x0A#8) || (b == 0x0A#8 && n == 0x0D#8)

/-- `[buf, buf+len)` meets one of the three core-owned regions (R159). -/
def meetsOwned (p : Params) (buf len : Nat) : Bool :=
  !(decide (Apart buf len p.tableBase.toNat gdtBytes) && decide (Apart buf len p.ptrBase.toNat ptrBytes) &&
    decide (Apart buf len fbBase p.fbSize.toNat))

end Sys2Proof.Machine
end

