-- ==== Sys2Proof/Machine/Ops.lean ====
section
/-! DEFINITION. The named operations over memory, ports, trace and faults that every meaning is written in
(00_scope.md R10, 20_memory.md R50 to R56, 60_exceptions.md R201), and the moves of the environment. -/

namespace Sys2Proof.Machine

open Sys2Proof.Config

/-- What a command or a step answers. -/
abbrev Result := Host.Outcome State Fault Refusal

/-! ## Memory -/

/-- The byte listed at an address; none where nothing was written or placed. -/
def memGet : Memory → Nat → Option Byte
  | [], _          => none
  | (k, v) :: m, a => if k = a then some v else memGet m a

/-- `bs` as cells at `a`, `a+1`, … -/
def cellsAt : Nat → List Byte → Memory
  | _, []      => []
  | a, b :: bs => (a, b) :: cellsAt (a + 1) bs

/-- Write `bs` at `a`, `a+1`, …, each byte a byte write in rising order (R54); the other cells stay, and the
canonical form is kept. -/
def memWrite (m : Memory) (a : Nat) (bs : List Byte) : Memory :=
  m.filter (fun c => decide (c.1 < a)) ++ (cellsAt a bs ++ m.filter (fun c => decide (a + bs.length ≤ c.1)))

/-- A byte of a core-owned region: the last one written, else the launch draw's (R26 to R28, R60). -/
def coreByte (s : State) (a : Nat) : Byte := (memGet s.mem a).getD (launchByte a)

/-- What an address with no listed byte reads as: the launch draw in a core-owned region, else no value (R26 to R28,
R31; log entries 2 and 4). -/
def unlistedByte (p : Params) (a : Nat) : Option Byte := if p.Owned a then some (launchByte a) else none

/-- Physical memory as one map: a core-owned byte always has a value, any other only if placed (R31, R52). -/
def byteAt (s : State) (a : Nat) : Option Byte := (memGet s.mem a).or (unlistedByte s.cfg a)

/-- The `n` core-owned bytes from `a` on. -/
def coreBytes (s : State) (a n : Nat) : List Byte := (List.range n).map (fun j => coreByte s (a + j))

/-- `MemWrite` of consecutive bytes (R10, R54). -/
def storeBytes (s : State) (a : Nat) (bs : List Byte) : State := { s with mem := memWrite s.mem a bs }

/-- `MemRead(a, n)` of core-owned bytes, little-endian (R10, R50). -/
def loadLE (s : State) (a n : Nat) : Nat := leNat (coreBytes s a n)

/-- The host's bytes from `a` on, none as soon as one holds no value (R31, R159). -/
def hostBytes (m : Memory) (a : Nat) : Nat → Option (List Byte)
  | 0     => some []
  | n + 1 =>
    match memGet m a with
    | none   => none
    | some b =>
      match hostBytes m (a + 1) n with
      | none    => none
      | some bs => some (b :: bs)

/-! ## Trace and ports -/

/-- `Emit(e)` (R10). -/
def emit (e : Event) (s : State) : State := { s with trace := s.trace ++ [e] }

/-- What a port write does to the external cursor controller (R32; PRESUMED by the spec, K8, log entry 12). -/
def controllerWrite (port : PortNum) (b : Byte) (s : State) : State :=
  if port = cursorCmdPort then { s with crtcIndex := b }
  else if port = cursorDataPort then
    if s.crtcIndex = cursorHighCmd then { s with cursorHigh := b }
    else if s.crtcIndex = cursorLowCmd then { s with cursorLow := b }
    else s
  else s

/-- `PortWrite(port, b)`: one 8-bit port write and its event (R10, R56). -/
def portWrite (port : PortNum) (b : Byte) (s : State) : State := emit (.port port b) (controllerWrite port b s)

/-! ## Faults -/

/-- Taking a fault: `FAULT` is the cause's code, the command word is kept as the line, and nothing else changes
(R201, R202). -/
def raise (c : Cause) (line : CommandWord) (s : State) : State := { s with fault := c.code, faultLine := some line }

/-- While `FAULT` is not 0 the core accepts no command: it has no effect (R24, R201, E9; DEDUCED, log entry 8). There is no return from
a fault but reset (R207). -/
def accept (s : State) (body : State → Result) : Result := if s.fault = 0#4 then body s else .next s

/-- A command word that decodes to no command (R88): its fault, before any effect. -/
def takeReject (r : Reject) (w : CommandWord) (s : State) : Result :=
  match rejectCause r with
  | some c => accept s (fun s => .next (raise c w s))
  | none   => .refused .notOneTransfer

/-! ## Descriptor entries -/

/-- `EncodeEntry(n, …)`: the eight bytes of entry `n` (R121). -/
def encodeEntry (n : Nat) (d : Descriptor) (s : State) : State :=
  storeBytes s (entryAddress s.cfg n) (descriptorBytes d)

/-- `DecodeEntry(n)` (R123). -/
def decodeEntry (n : Nat) (s : State) : Descriptor :=
  let a := entryAddress s.cfg n
  descriptorOf (coreByte s a) (coreByte s (a + 1)) (coreByte s (a + 2)) (coreByte s (a + 3))
    (coreByte s (a + 4)) (coreByte s (a + 5)) (coreByte s (a + 6)) (coreByte s (a + 7))

/-! ## The console's operations -/

/-- `WriteCell(i, ch, fg, bg)` (R151): outside the framebuffer nothing but the `CELL_DISCARD` event. -/
def putCell (i : Word32) (ch : Byte) (fg bg : BitVec 4) (s : State) : State :=
  if s.cfg.fbSize.toNat ≤ i.toNat then emit (.cellDiscard i) s
  else storeBytes s (fbBase + i.toNat) [ch, attrByte fg bg]

/-- `MoveCursor(pos)`: the four port writes (R98, R153, C1). -/
def cursorTo (pos : BitVec 16) (s : State) : State :=
  portWrite cursorDataPort (pos.extractLsb' 0 8)
    (portWrite cursorCmdPort cursorLowCmd
      (portWrite cursorDataPort (pos.extractLsb' 8 8)
        (portWrite cursorCmdPort cursorHighCmd s)))

/-- `Scroll()`: rows 0..23 take the bytes rows 1..24 had before (R155), written at once (DESIGN CHOICE, log
entry 10). -/
def scrollUp (s : State) : State :=
  storeBytes s fbBase (coreBytes s (fbBase + rowBytes) (gridBytes - rowBytes))

/-- One blank row: `FB_WIDTH` cells of the clear character and attribute (R157). -/
def blankRow (p : Params) : List Byte :=
  (List.replicate fbWidth [p.clearChar, attrByte p.clearFg p.clearBg]).flatten

/-- `ClearLine(r)` for a row of the grid (R157). -/
def blankLine (r : Nat) (s : State) : State := storeBytes s (fbBase + rowBytes * r) (blankRow s.cfg)

/-- The overflow check at the end of a pass (R165). -/
def overflowCheck (s : State) : State :=
  if fbHeight ≤ s.row.toNat then
    blankLine (fbHeight - 1) (scrollUp { s with row := BitVec.ofNat 32 (fbHeight - 1) })
  else s

/-- A pass over a line-break byte or a pair (R160, R161). -/
def breakPass (s : State) : State := overflowCheck { s with row := s.row + 1#32, col := 0#32 }

/-- The column step of a printable pass, with the wrap (R164). -/
def advance (s : State) : State :=
  if s.col + 1#32 = BitVec.ofNat 32 fbWidth then { s with col := 0#32, row := s.row + 1#32 }
  else { s with col := s.col + 1#32 }

/-- A pass over a printable byte (R160, R163). -/
def printPass (fg bg : BitVec 4) (b : Byte) (s : State) : State :=
  let p := linearPos s.row.toNat s.col.toNat
  overflowCheck (advance (cursorTo (BitVec.ofNat 16 p) (putCell (BitVec.ofNat 32 (cellBytes * p)) b fg bg s)))

/-- The passes over the input bytes in sequence, a pair of line-break bytes being one pass (R160, R162). -/
def stringPasses (fg bg : BitVec 4) : List Byte → State → State
  | [], s => s
  | [b], s => if isBreak b then breakPass s else printPass fg bg b s
  | b :: n :: rest, s =>
    if isBreak b then
      if isPair b n then stringPasses fg bg rest (breakPass s)
      else stringPasses fg bg (n :: rest) (breakPass s)
    else stringPasses fg bg (n :: rest) (printPass fg bg b s)

/-- The admission checks of WRITE_STRING: the bytes of the buffer, or none where `BUFFER_RANGE` holds (R159). That they
are all read before the passes is DEDUCED, log entry 13. -/
def admitBuffer (s : State) (buf len : Nat) : Option (List Byte) :=
  if len = 0 then some []
  else if addrSpace ≤ buf + len - 1 then none
  else if meetsOwned s.cfg buf len then none
  else hostBytes s.mem buf len

/-! ## The moves of the environment -/

/-- The host places a byte outside the core-owned regions (R31, R213); it has no other memory move (R53, U23). -/
def hostPlace (a : Word32) (b : Byte) (s : State) : Result :=
  if s.cfg.Owned a.toNat then .refused .hostMoveForbidden else .next (storeBytes s a.toNat [b])

/-- The processor sets bit 0 of byte 5 of a loaded entry, after TABLE_LOAD only (R64; PRESUMED by
the spec, K9, log entry 12; before it, DESIGN CHOICE, log entry 11). -/
def processorAccess (e : LoadedEntry) (s : State) : Result :=
  if s.installed then
    let a := entryAddress s.cfg e.index + 5
    .next (storeBytes s a [coreByte s a ||| 1#8])
  else .refused .processorMoveForbidden

/-- What a read of `RESP` gives the reader: the record, or the reader's own fault while `valid = 0` (R25, U16). -/
def readResp (s : State) : HostRead :=
  match s.resp with
  | some d => .record d
  | none   => .readerFault

/-- The host's read of `RESP` as a move (R213): the reader gets what `readResp` gives, and nothing of the core
changes. -/
def hostReadResp (s : State) : Result := .next { s with hostRead := readResp s }

/-- The host's read of a byte of memory as a move: `TBL`, `PTR` and `FB` included (R213), where a byte always has a
value, the launch draw's if nothing wrote it (R26 to R28). Nothing of the core changes. -/
def hostReadMemory (a : Word32) (s : State) : Result := .next { s with hostRead := .memory (byteAt s a.toNat) }

end Sys2Proof.Machine
end

