-- ==== Sys2Proof/Machine/Console.lean ====
section
/-! DEFINITION. The console unit's commands WRITE_CELL, MOVE_CURSOR, SCROLL, CLEAR_LINE and WRITE_STRING
(41_console.md). -/

namespace Sys2Proof.Machine

open Sys2Proof.Config

/-- WRITE_CELL (R152): the overrun check is `OFF = FB_SIZE - 1`. -/
def execWriteCell (off : Word32) (ch : Byte) (fg bg : BitVec 4) (s : State) : Result :=
  accept s fun s =>
    if off.toNat + 1 = s.cfg.fbSize.toNat then .next (raise .cellOverrun (encode (.writeCell off ch fg bg)) s)
    else .next (putCell off ch fg bg s)

/-- MOVE_CURSOR (R154): no fault, any position. -/
def execMoveCursor (pos : BitVec 16) (s : State) : Result := accept s fun s => .next (cursorTo pos s)

/-- SCROLL (R156): row 24 is not cleared. -/
def execScroll (s : State) : Result := accept s fun s => .next (scrollUp s)

/-- CLEAR_LINE (R158). -/
def execClearLine (row : Word32) (s : State) : Result :=
  accept s fun s =>
    if fbHeight ≤ row.toNat then .next (raise .rowRange (encode (.clearLine row)) s)
    else .next (blankLine row.toNat s)

/-- WRITE_STRING (R159, R160). -/
def execWriteString (buf len : Word32) (fg bg : BitVec 4) (s : State) : Result :=
  accept s fun s =>
    match admitBuffer s buf.toNat len.toNat with
    | none    => .next (raise .bufferRange (encode (.writeString buf len fg bg)) s)
    | some bs => .next (stringPasses fg bg bs s)

end Sys2Proof.Machine
end

