-- ==== Sys2Proof/Machine/Encoder.lean ====
section
/-! DEFINITION. The encoder unit's commands ENCODE, DECODE and INSTALL (40_descriptor_table.md). -/

namespace Sys2Proof.Machine

open Sys2Proof.Config

/-- ENCODE (R122). -/
def execEncode (idx : BitVec 3) (base : Word32) (limit : BitVec 20) (access : Byte) (flags : BitVec 4)
    (s : State) : Result :=
  accept s fun s =>
    if gdtEntries ≤ idx.toNat then .next (raise .badIndex (encode (.encode idx base limit access flags)) s)
    else if s.installed then .next (raise .tableLocked (encode (.encode idx base limit access flags)) s)
    else .next (encodeEntry idx.toNat { base := base, limit := limit, access := access, flags := flags } s)

/-- DECODE (R124). -/
def execDecode (idx : BitVec 3) (s : State) : Result :=
  accept s fun s =>
    if gdtEntries ≤ idx.toNat then .next (raise .badIndex (encode (.decode idx)) s)
    else .next { s with resp := some (decodeEntry idx.toNat s) }

/-- Steps (1) to (3) of INSTALL: the pointer record, then the five entries (R126). -/
def writeTables (s : State) : State :=
  encodeEntry 4 (installedDescriptor s.cfg .userData)
    (encodeEntry 3 (installedDescriptor s.cfg .userCode)
      (encodeEntry 2 (installedDescriptor s.cfg .kernelData)
        (encodeEntry 1 (installedDescriptor s.cfg .kernelCode)
          (encodeEntry 0 nullDescriptor
            (storeBytes s s.cfg.ptrBase.toNat (pointerRecord s.cfg))))))

/-- Step (4) of INSTALL: the table-load request, with the two fields read back from `PTR` (R126, R131, D34). -/
def requestLoad (s : State) : State :=
  emit (.tableLoad (BitVec.ofNat 16 (loadLE s s.cfg.ptrBase.toNat 2))
      (BitVec.ofNat 32 (loadLE s (s.cfg.ptrBase.toNat + 2) 4)))
    { s with installed := true }

/-- INSTALL (R126). -/
def execInstall (s : State) : Result :=
  accept s fun s =>
    if s.installed then .next (raise .reinstall (encode .install) s)
    else .next (requestLoad (writeTables s))

end Sys2Proof.Machine
end

