-- ==== Sys2Proof/Machine/Dispatch.lean ====
section
/-! DEFINITION. One arm per command (30_encoding.md R81), each one call of its meaning. -/

namespace Sys2Proof.Machine

def exec (i : Instr) (s : State) : Host.Outcome State Fault Refusal :=
  match i with
  | .encode idx base limit access flags => Sys2Proof.Machine.execEncode idx base limit access flags s
  | .install => Sys2Proof.Machine.execInstall s
  | .writeCell off ch fg bg => Sys2Proof.Machine.execWriteCell off ch fg bg s
  | .moveCursor pos => Sys2Proof.Machine.execMoveCursor pos s
  | .writeString buf len fg bg => Sys2Proof.Machine.execWriteString buf len fg bg s
  | .scroll => Sys2Proof.Machine.execScroll s
  | .clearLine row => Sys2Proof.Machine.execClearLine row s
  | .decode idx => Sys2Proof.Machine.execDecode idx s

end Sys2Proof.Machine
end

