-- ==== Sys2Proof/Machine/Step.lean ====
section
/-! DEFINITION. One step: the next move of the environment (20_memory.md R60), a command being decoded
(30_encoding.md R89) and run to completion. -/

namespace Sys2Proof.Machine

open Sys2Proof.Config

/-- The host presents a transfer: its command, or the fault of its word (R88, R89). -/
def stepCommand (bytes : List Byte) (s : State) : Host.Outcome State Fault Refusal :=
  match decodeBytes bytes with
  | .ok i    => exec i s
  | .error r => takeReject r (BitVec.ofNat 128 (leNat bytes)) s

/-- One step. A state whose configuration is not admitted (R7, log entry 18) has no step; with no move pending
the core waits and nothing changes (DESIGN CHOICE, log entry 7); otherwise the first pending move happens. -/
def step (s : State) : Host.Outcome State Fault Refusal :=
  if s.cfg.Admitted then
    match s.inputs with
    | []                       => .next s
    | .command bytes :: rest   => stepCommand bytes { s with inputs := rest }
    | .hostByte a b :: rest    => hostPlace a b { s with inputs := rest }
    | .accessed e :: rest      => processorAccess e { s with inputs := rest }
    | .readResp :: rest        => hostReadResp { s with inputs := rest }
    | .readMemory a :: rest    => hostReadMemory a { s with inputs := rest }
  else .refused .configurationNotAdmitted

/-- `s` with the table's word `w` of `nbits` bits presented as the next move of the host. -/
def State.withFetchWord (s : State) (nbits w : Nat) : State :=
  { s with inputs := .command (leBytes 16 (w % 2 ^ nbits)) :: s.inputs }

end Sys2Proof.Machine
end

