-- ==== Sys2Proof/Machine/Assembler.lean ====
section
/-! DEFINITION. The assembler's text of one line and its three pseudo-commands (30_encoding.md R101, R102), over
lists of characters. Nothing the core does depends on it (decision D31). -/

namespace Sys2Proof.Machine

open Sys2Proof.Config

/-- The tokens of a line: a mnemonic, a number (or a character's code), a comma. -/
inductive Token where
  | name (letters : List Char)
  | number (value : Nat)
  | comma
  deriving DecidableEq, Repr

/-- The value of a hexadecimal digit. -/
def hexDigit (c : Char) : Option Nat :=
  if 48 ≤ c.toNat ∧ c.toNat ≤ 57 then some (c.toNat - 48)
  else if 65 ≤ c.toNat ∧ c.toNat ≤ 70 then some (c.toNat - 55)
  else if 97 ≤ c.toNat ∧ c.toNat ≤ 102 then some (c.toNat - 87)
  else none

/-- Digits of a base after a value read so far. -/
def digits (base : Nat) : List Char → Nat → Option Nat
  | [], v      => some v
  | c :: cs, v =>
    match hexDigit c with
    | some d => if d < base then digits base cs (v * base + d) else none
    | none   => none

/-- A number in decimal or `0x` hex (R101). -/
def numeral : List Char → Option Nat
  | '0' :: 'x' :: c :: cs => digits 16 (c :: cs) 0
  | cs                    => digits 10 cs 0

/-- A letter or underscore of a mnemonic, a digit, or a letter inside a number. -/
def isWordChar (c : Char) : Bool := c.isAlphanum || c == '_'

/-- The tokens of a line up to its comment (R101); `fuel` is at least the line's length. -/
def lexLine : (fuel : Nat) → List Char → Option (List Token)
  | _, []               => some []
  | 0, _ :: _           => none
  | _ + 1, ';' :: _     => some []
  | n + 1, ',' :: cs    => (lexLine n cs).map (.comma :: ·)
  | n + 1, ' ' :: cs    => lexLine n cs
  | n + 1, '\t' :: cs   => lexLine n cs
  | n + 1, '\'' :: c :: '\'' :: cs => (lexLine n cs).map (.number c.toNat :: ·)
  | n + 1, c :: cs      =>
    let w := (c :: cs).takeWhile isWordChar
    let rest := (lexLine n (cs.dropWhile isWordChar))
    if c.isDigit then
      match numeral w with
      | some v => rest.map (.number v :: ·)
      | none   => none
    else if isWordChar c then rest.map (.name w :: ·)
    else none

/-- Operands separated by commas (R101). -/
def operandList : List Token → Option (List Nat)
  | []                         => some []
  | [.number v]                => some [v]
  | .number v :: .comma :: t :: ts => (operandList (t :: ts)).map (v :: ·)
  | _                          => none

/-- An operand that fits its field, and no other. -/
def fit (n v : Nat) : Option (BitVec n) := if v < 2 ^ n then some (BitVec.ofNat n v) else none

/-- The commands of a mnemonic and its operands, in R101's order; a pseudo-command stands for its expansion, and
is refused where the computed operand does not fit (R102). -/
def assemble (name : List Char) (args : List Nat) : Option (List Instr) :=
  if name = "ENCODE".toList then
    match args with
    | [idx, base, limit, access, flags] => do
      return [.encode (← fit 3 idx) (← fit 32 base) (← fit 20 limit) (← fit 8 access) (← fit 4 flags)]
    | _ => none
  else if name = "DECODE".toList then
    match args with
    | [idx] => do return [.decode (← fit 3 idx)]
    | _ => none
  else if name = "INSTALL".toList then
    if args = [] then some [.install] else none
  else if name = "WRITE_CELL".toList then
    match args with
    | [off, ch, fg, bg] => do return [.writeCell (← fit 32 off) (← fit 8 ch) (← fit 4 fg) (← fit 4 bg)]
    | _ => none
  else if name = "MOVE_CURSOR".toList then
    match args with
    | [pos] => do return [.moveCursor (← fit 16 pos)]
    | _ => none
  else if name = "WRITE_STRING".toList then
    match args with
    | [buf, len, fg, bg] => do return [.writeString (← fit 32 buf) (← fit 32 len) (← fit 4 fg) (← fit 4 bg)]
    | _ => none
  else if name = "SCROLL".toList then
    if args = [] then some [.scroll] else none
  else if name = "CLEAR_LINE".toList then
    match args with
    | [row] => do return [.clearLine (← fit 32 row)]
    | _ => none
  else if name = "PUT_CELL".toList then
    match args with
    | [row, col, ch, fg, bg] => do
      return [.writeCell (← fit 32 (2 * (row * fbWidth + col))) (← fit 8 ch) (← fit 4 fg) (← fit 4 bg)]
    | _ => none
  else if name = "SET_CURSOR".toList then
    match args with
    | [row, col] => do return [.moveCursor (← fit 16 (row * fbWidth + col))]
    | _ => none
  else if name = "CLEAR_SCREEN".toList then
    if args = [] then some ((List.range fbHeight).map (fun r => .clearLine (BitVec.ofNat 32 r))) else none
  else none

/-- The commands one line of assembler text stands for: none for a blank or comment line, refused where the text
is not a line of R101. -/
def assembleLine (line : List Char) : Option (List Instr) :=
  match lexLine line.length line with
  | none                   => none
  | some []                => some []
  | some (.name w :: rest) =>
    match operandList rest with
    | some args => assemble w args
    | none      => none
  | some (_ :: _)          => none

end Sys2Proof.Machine
end

