-- ==== Sys2Proof/Machine/Pseudocode.lean ====
section
/-! DEFINITION. The loops of 40_descriptor_table.md R121 and 41_console.md R155, R157 and R160 written out as the
spec lists them, one byte access at a time (20_memory.md R54). No meaning calls them: the operations of Ops.lean
write each loop's bytes at once, and that the two agree is what statements about these definitions say. -/

namespace Sys2Proof.Machine

open Sys2Proof.Config

/-- `MemWrite` as one byte write after the other, `a` first (R10, R54). -/
def byteWrites : Nat → List Byte → State → State
  | _, [], s      => s
  | a, b :: bs, s => byteWrites (a + 1) bs (storeBytes s a [b])

/-- `EncodeEntry` as its six writes (R121). -/
def encodeEntrySteps (n : Nat) (d : Descriptor) (s : State) : State :=
  let a := entryAddress s.cfg n
  byteWrites (a + 7) [d.base.extractLsb' 24 8]
    (byteWrites (a + 6) [(d.flags.setWidth 8 <<< 4) ||| (d.limit.extractLsb' 16 4).setWidth 8]
      (byteWrites (a + 5) [d.access]
        (byteWrites (a + 4) [d.base.extractLsb' 16 8]
          (byteWrites (a + 2) (leBytes 2 (d.base.extractLsb' 0 16).toNat)
            (byteWrites a (leBytes 2 (d.limit.extractLsb' 0 16).toNat) s)))))

/-- `Scroll` as its ascending copy loop (R155). -/
def scrollLoop (s : State) : State :=
  (List.range ((fbHeight - 1) * fbWidth * cellBytes)).foldl
    (fun s j => storeBytes s (fbBase + j) [coreByte s (fbBase + (j + fbWidth * cellBytes))]) s

/-- `ClearLine` as its ascending cell loop (R157). -/
def clearLineLoop (r : Nat) (s : State) : State :=
  (List.range fbWidth).foldl
    (fun s c => putCell (BitVec.ofNat 32 (2 * (r * fbWidth + c))) s.cfg.clearChar s.cfg.clearFg s.cfg.clearBg s) s

/-- The overflow check of R160 over the loops above. -/
def overflowLoop (s : State) : State :=
  if fbHeight ≤ s.row.toNat then
    clearLineLoop (fbHeight - 1) (scrollLoop { s with row := BitVec.ofNat 32 (fbHeight - 1) })
  else s

/-- `WriteStringLoop` (R160): `fuel` bounds the passes, `k` is the index of R33, and every input byte is read from
memory where the rule reads it. -/
def writeStringLoop (buf len : Nat) (fg bg : BitVec 4) : (fuel k : Nat) → State → State
  | 0, _, s => s
  | fuel + 1, k, s =>
    if k < len then
      match byteAt s (buf + k) with
      | none   => s
      | some b =>
        if isBreak b then
          let skip : Bool := decide (k + 1 < len) &&
            (match byteAt s (buf + k + 1) with
             | some n => isPair b n
             | none   => false)
          writeStringLoop buf len fg bg fuel ((if skip then k + 1 else k) + 1)
            (overflowLoop { s with row := s.row + 1#32, col := 0#32 })
        else
          let p := s.row.toNat * fbWidth + s.col.toNat
          writeStringLoop buf len fg bg fuel (k + 1)
            (overflowLoop (advance (cursorTo (BitVec.ofNat 16 p) (putCell (BitVec.ofNat 32 (2 * p)) b fg bg s))))
    else s

end Sys2Proof.Machine
end

