-- ==== Sys2Proof/Safety.lean ====
section
/-! DEFINITION. What a good state and a safe run are, in the terms the statements use: the invariant of the machine
(10_state.md R29, 40_descriptor_table.md R130 to R132, 60_exceptions.md R202), and reading runs of bytes. -/

namespace Sys2Proof.Machine

open Sys2Proof.Config

/-- "A claim about a run takes `FAULT = 0` as a premise" (R201): the core accepts commands. -/
abbrev Ready (s : State) : Prop := s.fault = 0#4

/-- Memory reads as `bs` at `a`, `a+1`, … -/
abbrev ReadsAs (s : State) (a : Nat) (bs : List Byte) : Prop := ∀ j < bs.length, byteAt s (a + j) = bs[j]?

/-- Every byte outside `[a, a+n)` reads in `t` as it read in `s`. -/
abbrev SameOutside (s t : State) (a n : Nat) : Prop := ∀ x, x < a ∨ a + n ≤ x → byteAt t x = byteAt s x

/-- Every byte reads in `t` as it read in `s`. -/
abbrev SameMemory (s t : State) : Prop := ∀ x, byteAt t x = byteAt s x

/-- The bits of table byte `j` that only the core writes: all but the accessed bits of entries 1 to 4 (R64). -/
def tableMask (j : Nat) : Byte := if j = 13 ∨ j = 21 ∨ j = 29 ∨ j = 37 then 0xFE#8 else 0xFF#8

/-- The installed table and pointer record stand, but for accessed bits (R127, R128, R130, R64). -/
def InstalledStands (s : State) : Prop :=
  (∀ j < gdtBytes, ∀ b, (installedTable s.cfg)[j]? = some b →
    coreByte s (s.cfg.tableBase.toNat + j) &&& tableMask j = b &&& tableMask j) ∧
  ReadsAs s s.cfg.ptrBase.toNat (pointerRecord s.cfg)

/-- The requests for a table load (R131). -/
def Event.isTableLoad : Event → Bool
  | .tableLoad _ _ => true
  | _              => false

/-- What the core ever emits: writes to its two ports (R52), the load of its own table (R131, R132), and discards
of offsets outside the framebuffer (R151). -/
def Event.Proper (p : Params) : Event → Prop
  | .port n _           => n = cursorCmdPort ∨ n = cursorDataPort
  | .tableLoad size a   => size = gdtSizeField ∧ a = p.tableBase
  | .cellDiscard offset => p.fbSize.toNat ≤ offset.toNat

/-- The invariant of the machine. -/
structure Inv (s : State) : Prop where
  /-- The configuration is admitted (R7, log entry 18). -/
  config : s.cfg.Admitted
  /-- `ROW < FB_HEIGHT` (R29). -/
  row : s.row.toNat < fbHeight
  /-- `COL < FB_WIDTH` (R29). -/
  col : s.col.toNat < fbWidth
  /-- Memory keeps its canonical form. -/
  mem : Memory.wf s.mem
  /-- `FAULT` holds 0 or a cause code of R202. -/
  code : s.fault.toNat ≤ 8
  /-- The fault's line is kept exactly while there is a fault (R202). -/
  line : s.fault = 0#4 ↔ s.faultLine = none
  /-- At most one table load was requested: exactly one once `INSTALLED = 1` (R126, R130). -/
  loads : (s.trace.filter Event.isTableLoad).length = if s.installed then 1 else 0
  /-- The table handed over stands (R130, R132). -/
  table : s.installed = true → InstalledStands s
  /-- Every event is one the core may emit. -/
  events : ∀ e ∈ s.trace, e.Proper s.cfg

/-- spec/opcode_table.json: the `match` and `mask` of each assigned opcode. -/
def tableRow : Nat → Option (CommandWord × CommandWord)
  | 1 => some (0x00000000000000000000000000000001#128, 0xFFFFFFFF00000000FFF00000FFF0008F#128)
  | 2 => some (0x00000000000000000000000000000002#128, 0xFFFFFFFFFFFFFFFFFFFFFFFFFFFFFFFF#128)
  | 3 => some (0x00000000000000000000000000000003#128, 0xFFFFFFFFFFFFFFFF00000000FF0000FF#128)
  | 4 => some (0x00000000000000000000000000000004#128, 0xFFFFFFFFFFFFFFFFFFFF0000FFFFFFFF#128)
  | 5 => some (0x00000000000000000000000000000005#128, 0xFFFFFFFF0000000000000000FFFF00FF#128)
  | 6 => some (0x00000000000000000000000000000006#128, 0xFFFFFFFFFFFFFFFFFFFFFFFFFFFFFFFF#128)
  | 7 => some (0x00000000000000000000000000000007#128, 0xFFFFFFFFFFFFFFFF00000000FFFFFFFF#128)
  | 8 => some (0x00000000000000000000000000000008#128, 0xFFFFFFFFFFFFFFFFFFFFFFFFFFFFFF8F#128)
  | _ => none

/-- The bytes at `buf` are placed by the host, outside the core-owned regions and inside the address space. -/
abbrev Placed (s : State) (buf : Word32) (bs : List Byte) : Prop :=
  ReadsAs s buf.toNat bs ∧ buf.toNat + bs.length ≤ 2 ^ 32 ∧
  ∀ a, buf.toNat ≤ a → a < buf.toNat + bs.length → ¬ s.cfg.Owned a

/-- The line-break bytes, as R103 and R161 list them. -/
abbrev Breaks (b : Byte) : Prop := b = 0x0A#8 ∨ b = 0x0D#8 ∨ b = 0x00#8

/-- The two-byte line breaks CR LF and LF CR, as R162 lists them. -/
abbrev Pairs (b n : Byte) : Prop := (b = 0x0D#8 ∧ n = 0x0A#8) ∨ (b = 0x0A#8 ∧ n = 0x0D#8)

/-- What the port events of a trace leave in the cursor controller (R32): index, high byte, low byte. -/
def replay : List Event → Byte × Byte × Byte → Byte × Byte × Byte
  | [], c => c
  | .port n b :: es, (ix, hi, lo) =>
    replay es (if n = 0x3D4#16 then (b, hi, lo)
      else if n = 0x3D5#16 then (if ix = 14#8 then (ix, b, lo) else if ix = 15#8 then (ix, hi, b) else (ix, hi, lo))
      else (ix, hi, lo))
  | _ :: es, c => replay es c

end Sys2Proof.Machine
end

