-- ==== Sys2Proof/Certificates/Slice0/Obligations.lean ====
section
/-! DEFINITION. The statements for the provers, one per rule or group of rules of spec/; titles, texts and citations
are in OBLIGATIONS.json. -/

open Sys2Proof Sys2Proof.Config Sys2Proof.Machine

/-! ## Command words -/

/-- Decoding the transfer of an encoded command gives the command back, for every command and every value of every
operand. -/
def Obligations.DecodeOfEncodeIsTheCommand : Prop :=
  ∀ i : Instr, decodeBytes (transfer (encode i)) = .ok i

/-- A word that decodes is the encoding of what it decodes to: no bit of a legal word is dropped. -/
def Obligations.EncodeOfDecodeIsTheWord : Prop :=
  ∀ (w : CommandWord) (i : Instr), decodeWord w = .ok i → encode i = w

/-- A word matches a row of the opcode table exactly when it decodes to a command of that row's opcode. -/
def Obligations.OpcodeTableDecidesDecoding : Prop :=
  ∀ (w : CommandWord) (k : Nat) (row : CommandWord × CommandWord), tableRow k = some row →
    (w &&& row.2 = row.1 ↔ ∃ i, decodeWord w = .ok i ∧ (opcode (encode i)).toNat = k)

/-- Decoding tells an unassigned opcode first, then a reserved bit, and accepts every other word (R89). -/
def Obligations.DecodingOrderIsOpcodeThenReserved : Prop :=
  ∀ w : CommandWord,
    (((opcode w).toNat = 0 ∨ 9 ≤ (opcode w).toNat) ↔ decodeWord w = .error .illegalCommand) ∧
    ((∃ i, operands w = some i ∧ w &&& reservedMask i ≠ 0#128) ↔ decodeWord w = .error .reservedBits) ∧
    (decodeWord w = .error .illegalCommand ∨ decodeWord w = .error .reservedBits ∨ ∃ i, decodeWord w = .ok i)

/-- Words of 95_test_vectors.md decode to the commands they stand for. -/
def Obligations.SpecWordsDecodeAsWritten : Prop :=
  decodeTableWord 128 0x0000000012345678000ABCDE00075A41 = some (.encode 4 0x12345678 0xABCDE 0x5A 7) ∧
  decodeTableWord 128 0x2 = some .install ∧
  decodeTableWord 128 0x000000000000000000000F9E005AF103 = some (.writeCell 3998 0x5A 15 1) ∧
  decodeTableWord 128 0x00000000000000000000123400000004 = some (.moveCursor 0x1234) ∧
  decodeTableWord 128 0x0000000000200010000000020000E105 = some (.writeString 0x00200010 2 14 1) ∧
  decodeTableWord 128 0x6 = some .scroll ∧
  decodeTableWord 128 0x00000000000000000000001800000007 = some (.clearLine 24) ∧
  decodeTableWord 128 0x48 = some (.decode 4) ∧
  decodeTableWord 128 0x8000000000000000000000000000000F = none ∧
  decodeTableWord 128 0xD1 = none

/-! ## The step -/

/-- When the next move presents sixteen bytes that decode to a command, the step is `exec` of it, with that move
taken from the front of the pending ones. -/
def Obligations.StepRunsTheDecodedCommand : Prop :=
  ∀ (s : State) (bytes : List Byte) (rest : List Input) (i : Instr), s.cfg.Admitted →
    s.inputs = .command bytes :: rest → decodeBytes bytes = .ok i → step s = exec i { s with inputs := rest }

/-- A word with an unassigned opcode, and a word with a reserved bit set, fault with codes 1 and 2 before any effect;
the word is kept beside `FAULT`. -/
def Obligations.UndecodableWordsFaultWithoutEffect : Prop :=
  ∀ (s : State) (w : CommandWord) (rest : List Input), s.cfg.Admitted → Ready s →
    s.inputs = .command (transfer w) :: rest →
    (((opcode w).toNat = 0 ∨ 9 ≤ (opcode w).toNat) →
      step s = .next { s with inputs := rest, fault := 1#4, faultLine := some w }) ∧
    (∀ i, operands w = some i → w &&& reservedMask i ≠ 0#128 →
      step s = .next { s with inputs := rest, fault := 2#4, faultLine := some w })

/-- While `FAULT` is not 0 the core accepts no command: no command, and no word at all, has an effect. -/
def Obligations.FaultedCoreAcceptsNoCommand : Prop :=
  ∀ s : State, s.fault ≠ 0#4 →
    (∀ i : Instr, exec i s = .next s) ∧
    (∀ (w : CommandWord) (rest : List Input), s.cfg.Admitted → s.inputs = .command (transfer w) :: rest →
      step s = .next { s with inputs := rest })

/-- The moves that present no command: none pending, nothing changes (the model's choice, log entry 7); a byte the
host places outside the core-owned regions is then read there and nothing else changes, and there is no such move
inside them; a read of `RESP` changes nothing of the core, and gives the reader the record, or the reader's own fault
while `valid = 0` (R25); a read of a byte of memory changes nothing of the core, and in `TBL`, `PTR` and `FB` always
gives a byte, the one the core reads there (R213; where the model keeps what was read: log entry 17); there is no step
from a configuration that is not admitted. -/
def Obligations.HostMovesBetweenCommands : Prop :=
  ∀ (s : State) (rest : List Input),
    (¬ s.cfg.Admitted → step s = .refused .configurationNotAdmitted) ∧
    (s.cfg.Admitted →
      (s.inputs = [] → step s = .next s) ∧
      (∀ (a : Word32) (b : Byte), s.inputs = .hostByte a b :: rest →
        (s.cfg.Owned a.toNat → step s = .refused .hostMoveForbidden) ∧
        (¬ s.cfg.Owned a.toNat → ∃ t, step s = .next t ∧ byteAt t a.toNat = some b ∧
          SameOutside s t a.toNat 1 ∧ t = { s with inputs := rest, mem := t.mem })) ∧
      (s.inputs = .readResp :: rest →
        (s.resp = none → step s = .next { s with inputs := rest, hostRead := .readerFault }) ∧
        (∀ d, s.resp = some d → step s = .next { s with inputs := rest, hostRead := .record d })) ∧
      (∀ a : Word32, s.inputs = .readMemory a :: rest →
        step s = .next { s with inputs := rest, hostRead := .memory (byteAt s a.toNat) } ∧
        (s.cfg.Owned a.toNat →
          step s = .next { s with inputs := rest, hostRead := .memory (some (coreByte s a.toNat)) })))

/-- After TABLE_LOAD the processor may set bit 0 of byte 5 of entry 1, 2, 3 or 4; it changes nothing else. Before,
there is no such move. -/
def Obligations.ProcessorSetsOnlyAccessedBits : Prop :=
  ∀ (s : State) (e : LoadedEntry) (rest : List Input), s.cfg.Admitted → s.inputs = .accessed e :: rest →
    (s.installed = false → step s = .refused .processorMoveForbidden) ∧
    (s.installed = true → ∃ t, step s = .next t ∧
      byteAt t (s.cfg.tableBase.toNat + 8 * e.index + 5) =
        some (coreByte s (s.cfg.tableBase.toNat + 8 * e.index + 5) ||| 1#8) ∧
      SameOutside s t (s.cfg.tableBase.toNat + 8 * e.index + 5) 1 ∧
      t = { s with inputs := rest, mem := t.mem })

/-! ## The encoder unit -/

/-- ENCODE: `BAD_INDEX`, then `TABLE_LOCKED`, else the eight bytes of the entry and nothing else. -/
def Obligations.EncodeWritesExactlyItsEntry : Prop :=
  ∀ (s : State) (idx : BitVec 3) (base : Word32) (limit : BitVec 20) (access : Byte) (flags : BitVec 4), Ready s →
    (5 ≤ idx.toNat → exec (.encode idx base limit access flags) s =
      .next { s with fault := 3#4, faultLine := some (encode (.encode idx base limit access flags)) }) ∧
    (idx.toNat < 5 → s.installed = true → exec (.encode idx base limit access flags) s =
      .next { s with fault := 4#4, faultLine := some (encode (.encode idx base limit access flags)) }) ∧
    (idx.toNat < 5 → s.installed = false → ∃ t, exec (.encode idx base limit access flags) s = .next t ∧
      ReadsAs t (s.cfg.tableBase.toNat + 8 * idx.toNat)
        [limit.extractLsb' 0 8, limit.extractLsb' 8 8, base.extractLsb' 0 8, base.extractLsb' 8 8,
         base.extractLsb' 16 8, access, (flags.setWidth 8 <<< 4) ||| (limit.extractLsb' 16 4).setWidth 8,
         base.extractLsb' 24 8] ∧
      SameOutside s t (s.cfg.tableBase.toNat + 8 * idx.toNat) 8 ∧ t = { s with mem := t.mem })

/-- The entry ENCODE wrote, read as one 64-bit little-endian value, holds each field at its place (R91). -/
def Obligations.EncodedEntryAsOneValue : Prop :=
  ∀ (s : State) (idx : BitVec 3) (base : Word32) (limit : BitVec 20) (access : Byte) (flags : BitVec 4), Ready s →
    idx.toNat < 5 → s.installed = false → ∃ t, exec (.encode idx base limit access flags) s = .next t ∧
      loadLE t (s.cfg.tableBase.toNat + 8 * idx.toNat) 8 =
        limit.toNat % 2 ^ 16 + base.toNat % 2 ^ 24 * 2 ^ 16 + access.toNat * 2 ^ 40 +
        limit.toNat / 2 ^ 16 * 2 ^ 48 + flags.toNat * 2 ^ 52 + base.toNat / 2 ^ 24 * 2 ^ 56

/-- DECODE: `BAD_INDEX`, else `RESP` holds the fields of the entry's eight bytes and nothing else changes. -/
def Obligations.DecodeReadsTheEntry : Prop :=
  ∀ (s : State) (idx : BitVec 3), Ready s →
    (5 ≤ idx.toNat → exec (.decode idx) s =
      .next { s with fault := 3#4, faultLine := some (encode (.decode idx)) }) ∧
    (idx.toNat < 5 → ∃ d, exec (.decode idx) s = .next { s with resp := some d } ∧
      let b := fun j => (coreByte s (s.cfg.tableBase.toNat + 8 * idx.toNat + j)).toNat
      d.base.toNat = b 2 + 2 ^ 8 * b 3 + 2 ^ 16 * b 4 + 2 ^ 24 * b 7 ∧
      d.limit.toNat = b 0 + 2 ^ 8 * b 1 + 2 ^ 16 * (b 6 % 16) ∧
      d.access.toNat = b 5 ∧ d.flags.toNat = b 6 / 16)

/-- The round-trip law (R125). -/
def Obligations.EncodeThenDecodeRoundTrips : Prop :=
  ∀ (s : State) (idx : BitVec 3) (base : Word32) (limit : BitVec 20) (access : Byte) (flags : BitVec 4),
    idx.toNat < 5 → s.installed = false → Ready s →
    ∃ t u, exec (.encode idx base limit access flags) s = .next t ∧ exec (.decode idx) t = .next u ∧
      u.resp = some { base := base, limit := limit, access := access, flags := flags }

/-- INSTALL: `REINSTALL`, else the pointer record and the five entries, the flag, the request carrying the record's
two fields, and nothing else, whatever memory held before. -/
def Obligations.InstallBuildsTheTableAndRequestsItsLoad : Prop :=
  ∀ s : State, s.cfg.Admitted → Ready s →
    (s.installed = true → exec .install s =
      .next { s with fault := 5#4, faultLine := some (encode .install) }) ∧
    (s.installed = false → ∃ t, exec .install s = .next t ∧
      ReadsAs t s.cfg.tableBase.toNat (installedTable s.cfg) ∧
      ReadsAs t s.cfg.ptrBase.toNat [0x27#8, 0x00#8, s.cfg.tableBase.extractLsb' 0 8, s.cfg.tableBase.extractLsb' 8 8,
        s.cfg.tableBase.extractLsb' 16 8, s.cfg.tableBase.extractLsb' 24 8] ∧
      (∀ a, ¬ s.cfg.InTable a → ¬ s.cfg.InPointer a → byteAt t a = byteAt s a) ∧
      t = { s with mem := t.mem, installed := true, trace := s.trace ++ [.tableLoad 39#16 s.cfg.tableBase] })

/-- The installed table, byte for byte, at the spec's values of its access bytes and flags (R127), from any prior
contents (R129). -/
def Obligations.InstalledTableIsTheSpecTable : Prop :=
  ∀ s : State, s.cfg.Admitted → s.cfg.SpecValues → Ready s → s.installed = false →
    ∃ t, exec .install s = .next t ∧
      ReadsAs t s.cfg.tableBase.toNat
        [0x00#8, 0x00#8, 0x00#8, 0x00#8, 0x00#8, 0x00#8, 0x00#8, 0x00#8,
         0xFF#8, 0xFF#8, 0x00#8, 0x00#8, 0x00#8, 0x9A#8, 0xCF#8, 0x00#8,
         0xFF#8, 0xFF#8, 0x00#8, 0x00#8, 0x00#8, 0x92#8, 0xCF#8, 0x00#8,
         0xFF#8, 0xFF#8, 0x00#8, 0x00#8, 0x00#8, 0xFA#8, 0xCF#8, 0x00#8,
         0xFF#8, 0xFF#8, 0x00#8, 0x00#8, 0x00#8, 0xF2#8, 0xCF#8, 0x00#8]

/-- The flat model (R58, R59): each loaded entry of the installed table starts at 0 and ends at 0xFFFFFFFF; the four
differ in ring and executable bit only, every other field and bit being stated. The spec marks the bit positions of
R92 and R93 as general knowledge (log entry 12). -/
def Obligations.InstalledTableIsFlat : Prop :=
  ∀ s : State, s.cfg.Admitted → s.cfg.SpecValues → Ready s → s.installed = false →
    ∃ t, exec .install s = .next t ∧ ∀ e : LoadedEntry,
      (decodeEntry e.index t).base = 0#32 ∧ (decodeEntry e.index t).limit = 0xFFFFF#20 ∧
      (decodeEntry e.index t).flags = 0xC#4 ∧ (decodeEntry e.index t).granular = true ∧
      (decodeEntry e.index t).size32 = true ∧ (decodeEntry e.index t).lastOffset = 0xFFFFFFFF ∧
      (decodeEntry e.index t).present = true ∧ (decodeEntry e.index t).codeOrData = true ∧
      (decodeEntry e.index t).readWrite = true ∧ (decodeEntry e.index t).accessed = false ∧
      (decodeEntry e.index t).conforming = false ∧
      (decodeEntry e.index t).ring = (if e = .kernelCode ∨ e = .kernelData then 0#2 else 3#2) ∧
      (decodeEntry e.index t).executable = decide (e = .kernelCode ∨ e = .userCode)

/-- Once installed, no command writes the table or the pointer record, and none installs again (R130, R63). -/
def Obligations.InstalledTableIsNeverMutated : Prop :=
  ∀ (i : Instr) (s t : State), s.cfg.Admitted → s.row.toNat < 25 → s.col.toNat < 80 → s.installed = true →
    exec i s = .next t → t.installed = true ∧ ∀ a, s.cfg.InTable a ∨ s.cfg.InPointer a → byteAt t a = byteAt s a

/-! ## The console unit -/

/-- WRITE_CELL, for every value of the parameter `FB_SIZE`: `CELL_OVERRUN` at the framebuffer's last byte, two bytes
inside the framebuffer, and outside it nothing but the discard event. At the spec's 4000 the last byte is offset
3999. -/
def Obligations.WriteCellStoresOrDiscards : Prop :=
  ∀ (s : State) (off : Word32) (ch : Byte) (fg bg : BitVec 4), Ready s →
    (off.toNat + 1 = s.cfg.fbSize.toNat → exec (.writeCell off ch fg bg) s =
      .next { s with fault := 6#4, faultLine := some (encode (.writeCell off ch fg bg)) }) ∧
    (off.toNat + 1 < s.cfg.fbSize.toNat → ∃ t, exec (.writeCell off ch fg bg) s = .next t ∧
      ReadsAs t (0xB8000 + off.toNat) [ch, (fg.setWidth 8 <<< 4) ||| bg.setWidth 8] ∧
      SameOutside s t (0xB8000 + off.toNat) 2 ∧ t = { s with mem := t.mem }) ∧
    (s.cfg.fbSize.toNat ≤ off.toNat → exec (.writeCell off ch fg bg) s =
      .next { s with trace := s.trace ++ [.cellDiscard off] }) ∧
    (s.cfg.SpecValues → off.toNat = 3999 → exec (.writeCell off ch fg bg) s =
      .next { s with fault := 6#4, faultLine := some (encode (.writeCell off ch fg bg)) })

/-- MOVE_CURSOR: exactly the four port writes, command then data, high byte first; the controller then holds the
position; nothing else changes. What the controller holds is R32's protocol, which the spec marks as general knowledge
(K8, log entry 12). -/
def Obligations.MoveCursorSendsFourPortWrites : Prop :=
  ∀ (s : State) (pos : BitVec 16), Ready s →
    exec (.moveCursor pos) s = .next { s with
      trace := s.trace ++ [.port 0x3D4#16 14#8, .port 0x3D5#16 (pos.extractLsb' 8 8),
        .port 0x3D4#16 15#8, .port 0x3D5#16 (pos.extractLsb' 0 8)],
      crtcIndex := 15#8, cursorHigh := pos.extractLsb' 8 8, cursorLow := pos.extractLsb' 0 8 }

/-- SCROLL: every byte of rows 0 to 23 takes the byte 160 above it; row 24 and everything else stay, so that rows 23
and 24 then hold the same bytes. -/
def Obligations.ScrollMovesEveryRowUp : Prop :=
  ∀ s : State, s.cfg.Admitted → Ready s → ∃ t, exec .scroll s = .next t ∧
    (∀ j < 3840, byteAt t (0xB8000 + j) = byteAt s (0xB8000 + j + 160)) ∧
    (∀ j < 160, byteAt t (0xB8000 + 3680 + j) = byteAt t (0xB8000 + 3840 + j)) ∧
    SameOutside s t 0xB8000 3840 ∧ t = { s with mem := t.mem }

/-- CLEAR_LINE: `ROW_RANGE`, else the 80 cells of the row hold the clear character and attribute, and nothing else
changes; at the spec's defaults each is 0x20, 0xF0. -/
def Obligations.ClearLineBlanksTheRow : Prop :=
  ∀ (s : State) (row : Word32), Ready s →
    (25 ≤ row.toNat → exec (.clearLine row) s =
      .next { s with fault := 7#4, faultLine := some (encode (.clearLine row)) }) ∧
    (row.toNat < 25 → ∃ t, exec (.clearLine row) s = .next t ∧
      (∀ c < 80, byteAt t (0xB8000 + 2 * (row.toNat * 80 + c)) = some s.cfg.clearChar ∧
        byteAt t (0xB8000 + 2 * (row.toNat * 80 + c) + 1) = some (s.cfg.clearFg ++ s.cfg.clearBg : BitVec 8) ∧
        (s.cfg.SpecValues → byteAt t (0xB8000 + 2 * (row.toNat * 80 + c)) = some 0x20#8 ∧
          byteAt t (0xB8000 + 2 * (row.toNat * 80 + c) + 1) = some 0xF0#8)) ∧
      SameOutside s t (0xB8000 + 160 * row.toNat) 160 ∧ t = { s with mem := t.mem })

/-- WRITE_STRING's admission (R159): a buffer that runs past 0xFFFFFFFF, meets a core-owned region or holds a byte
with no value faults with code 8 and no effect; any other is read and processed. -/
def Obligations.WriteStringAdmitsOrFaults : Prop :=
  ∀ (s : State) (buf len : Word32) (fg bg : BitVec 4), s.cfg.Admitted → Ready s →
    (0 < len.toNat ∧ (0xFFFFFFFF < buf.toNat + len.toNat - 1 ∨
        (∃ a, buf.toNat ≤ a ∧ a < buf.toNat + len.toNat ∧ s.cfg.Owned a) ∨
        (∃ a, buf.toNat ≤ a ∧ a < buf.toNat + len.toNat ∧ byteAt s a = none)) →
      exec (.writeString buf len fg bg) s =
        .next { s with fault := 8#4, faultLine := some (encode (.writeString buf len fg bg)) }) ∧
    (¬ (0 < len.toNat ∧ (0xFFFFFFFF < buf.toNat + len.toNat - 1 ∨
        (∃ a, buf.toNat ≤ a ∧ a < buf.toNat + len.toNat ∧ s.cfg.Owned a) ∨
        (∃ a, buf.toNat ≤ a ∧ a < buf.toNat + len.toNat ∧ byteAt s a = none))) →
      ∃ bs, bs.length = len.toNat ∧ ReadsAs s buf.toNat bs ∧
        exec (.writeString buf len fg bg) s = .next (stringPasses fg bg bs s))

/-- A string of no bytes changes nothing and cannot fault, whatever its buffer address. -/
def Obligations.EmptyStringChangesNothing : Prop :=
  ∀ (s : State) (buf : Word32) (fg bg : BitVec 4), exec (.writeString buf 0#32 fg bg) s = .next s

/-- A line-break byte (R161): the next row at column 0, with one Scroll and ClearLine(24) exactly when the row was 24
(R165, and R167, which the spec derives from its loop); no port, no event. -/
def Obligations.LineBreakPassEndsOnTheNextRow : Prop :=
  ∀ (s : State) (buf : Word32) (b : Byte) (fg bg : BitVec 4), s.cfg.Admitted → Ready s →
    s.row.toNat < 25 → Breaks b → Placed s buf [b] →
    (s.row.toNat < 24 → exec (.writeString buf 1#32 fg bg) s =
      .next { s with row := s.row + 1#32, col := 0#32 }) ∧
    (s.row.toNat = 24 → exec (.writeString buf 1#32 fg bg) s =
      .next { blankLine 24 (scrollUp s) with col := 0#32 })

/-- A printable byte (R163, R164, R167): its cell, the cursor on that cell, then the column step with the wrap, and
one Scroll and ClearLine(24) exactly from the last cell of the grid. -/
def Obligations.PrintablePassWritesItsCell : Prop :=
  ∀ (s : State) (buf : Word32) (b : Byte) (fg bg : BitVec 4), s.cfg.Admitted → Ready s →
    s.row.toNat < 25 → s.col.toNat < 80 → ¬ Breaks b → Placed s buf [b] →
    let p := s.row.toNat * 80 + s.col.toNat
    let u := cursorTo (BitVec.ofNat 16 p) (storeBytes s (0xB8000 + 2 * p) [b, (fg ++ bg : BitVec 8)])
    exec (.writeString buf 1#32 fg bg) s = .next
      (if s.col.toNat < 79 then { u with col := s.col + 1#32 }
       else if s.row.toNat < 24 then { u with col := 0#32, row := s.row + 1#32 }
       else { blankLine 24 (scrollUp u) with col := 0#32, row := 24#32 })

/-- The pair rule (R162): CR LF and LF CR are one row advance, any other two line-break bytes are two; each advance
from row 24 is one Scroll and ClearLine(24) (R165), and no other byte changes. -/
def Obligations.PairsOfLineBreaksAdvanceOnce : Prop :=
  ∀ (s : State) (buf : Word32) (b n : Byte) (fg bg : BitVec 4), s.cfg.Admitted → Ready s →
    s.row.toNat < 25 → Breaks b → Breaks n → Placed s buf [b, n] →
    exec (.writeString buf 2#32 fg bg) s = .next
      (if Pairs b n then
        if s.row.toNat < 24 then { s with row := s.row + 1#32, col := 0#32 }
        else { blankLine 24 (scrollUp s) with col := 0#32 }
      else if s.row.toNat < 23 then { s with row := s.row + 2#32, col := 0#32 }
      else if s.row.toNat = 23 then { blankLine 24 (scrollUp s) with row := 24#32, col := 0#32 }
      else { blankLine 24 (scrollUp (blankLine 24 (scrollUp s))) with col := 0#32 })

/-- A string continues where the one before it ended (R162, R244): its passes are those of its two parts in turn,
wherever the cut does not fall inside a pair. -/
def Obligations.StringsContinueWhereTheLastEnded : Prop :=
  ∀ (fg bg : BitVec 4) (bs cs : List Byte) (s : State),
    (∀ b n, bs.getLast? = some b → cs.head? = some n → ¬ Pairs b n) →
    stringPasses fg bg (bs ++ cs) s = stringPasses fg bg cs (stringPasses fg bg bs s)

/-- Eighty printable bytes from column 0 fill the row and wrap to the next one at column 0, with no scroll and four
port events a byte (R164). -/
def Obligations.FullRowWrapsToTheNext : Prop :=
  ∀ (s : State) (buf : Word32) (bs : List Byte) (fg bg : BitVec 4), s.cfg.Admitted → Ready s →
    s.row.toNat < 24 → s.col = 0#32 → bs.length = 80 → (∀ b ∈ bs, ¬ Breaks b) → Placed s buf bs →
    ∃ t, exec (.writeString buf 80#32 fg bg) s = .next t ∧ t.row = s.row + 1#32 ∧ t.col = 0#32 ∧
      (∀ c < 80, byteAt t (0xB8000 + 2 * (s.row.toNat * 80 + c)) = bs[c]? ∧
        byteAt t (0xB8000 + 2 * (s.row.toNat * 80 + c) + 1) = some (fg ++ bg : BitVec 8)) ∧
      SameOutside s t (0xB8000 + 160 * s.row.toNat) 160 ∧
      t.trace.length = s.trace.length + 320

/-- The last cell of the grid (R168): the byte ends on row 23, row 24 is blank, the position is (24, 0), and the
cursor stays at 1999. -/
def Obligations.LastCellScrollsItsCharacter : Prop :=
  ∀ (s : State) (buf : Word32) (b : Byte) (fg bg : BitVec 4), s.cfg.Admitted → Ready s →
    s.row = 24#32 → s.col = 79#32 → ¬ Breaks b → Placed s buf [b] →
    ∃ t, exec (.writeString buf 1#32 fg bg) s = .next t ∧ t.row = 24#32 ∧ t.col = 0#32 ∧
      ReadsAs t (0xB8000 + 3838) [b, (fg ++ bg : BitVec 8)] ∧
      (∀ c < 80, byteAt t (0xB8000 + 2 * (24 * 80 + c)) = some s.cfg.clearChar ∧
        byteAt t (0xB8000 + 2 * (24 * 80 + c) + 1) = some (s.cfg.clearFg ++ s.cfg.clearBg : BitVec 8)) ∧
      (t.cursorHigh ++ t.cursorLow : BitVec 16) = 1999#16 ∧
      t.trace = s.trace ++ [.port 0x3D4#16 14#8, .port 0x3D5#16 0x07#8, .port 0x3D4#16 15#8, .port 0x3D5#16 0xCF#8]

/-- What WRITE_STRING leaves alone: everything but the position, the framebuffer, the trace, the cursor controller
and, where it faults, the fault register; the trace gains four events for each printable byte. -/
def Obligations.WriteStringFrame : Prop :=
  ∀ (s : State) (buf len : Word32) (bs : List Byte) (fg bg : BitVec 4), s.cfg.Admitted →
    Ready s → s.row.toNat < 25 → s.col.toNat < 80 → bs.length = len.toNat → Placed s buf bs →
    ∃ t, exec (.writeString buf len fg bg) s = .next t ∧
      t = { s with row := t.row, col := t.col, mem := t.mem, trace := t.trace, crtcIndex := t.crtcIndex,
                   cursorHigh := t.cursorHigh, cursorLow := t.cursorLow } ∧
      (∀ a, ¬ s.cfg.InFramebuffer a → byteAt t a = byteAt s a) ∧
      t.trace.length = s.trace.length + 4 * (bs.filter (fun b => decide (¬ Breaks b))).length

/-! ## The spec's loops -/

/-- WRITE_STRING is the loop of R160 run byte by byte against memory. -/
def Obligations.WriteStringIsTheSpecLoop : Prop :=
  ∀ (s : State) (buf len : Word32) (bs : List Byte) (fg bg : BitVec 4), s.cfg.Admitted →
    Ready s → s.row.toNat < 25 → s.col.toNat < 80 → bs.length = len.toNat → Placed s buf bs →
    exec (.writeString buf len fg bg) s = .next (writeStringLoop buf.toNat len.toNat fg bg len.toNat 0 s)

/-- SCROLL is the ascending byte copy of R155. -/
def Obligations.ScrollIsTheByteLoop : Prop :=
  ∀ s : State, Ready s → exec .scroll s = .next (scrollLoop s)

/-- CLEAR_LINE is the ascending cell loop of R157. -/
def Obligations.ClearLineIsTheCellLoop : Prop :=
  ∀ (s : State) (row : Word32), s.cfg.Admitted → Ready s → row.toNat < 25 →
    exec (.clearLine row) s = .next (clearLineLoop row.toNat s)

/-- ENCODE's eight bytes are the six writes of R121. -/
def Obligations.EncodeIsTheSixWrites : Prop :=
  ∀ (s : State) (idx : BitVec 3) (base : Word32) (limit : BitVec 20) (access : Byte) (flags : BitVec 4), Ready s →
    idx.toNat < 5 → s.installed = false → exec (.encode idx base limit access flags) s =
      .next (encodeEntrySteps idx.toNat { base := base, limit := limit, access := access, flags := flags } s)

/-! ## The whole machine -/

/-- Every step keeps the invariant. -/
def Obligations.StepKeepsTheInvariant : Prop :=
  ∀ s t : State, Inv s → step s = .next t → Inv t

/-- Every admitted launch (R7, log entry 18), with memory in its canonical form, starts in the invariant; the reset
state too (its table addresses are the model's choice, log entry 6). -/
def Obligations.LaunchMeetsTheInvariant : Prop :=
  Inv State.reset ∧ ∀ (l : Launch) (s : State), Memory.wf l.mem → State.launch l = some s → Inv s

/-- The reset state (R240) of an admitted launch, which holds the launch's own parameters, memory (the host's bytes,
R31, and what is known of the draw) and controller registers (R32), and no launch state for any other configuration
(R7; that a framebuffer too small for the grid is one: log entry 18). That the environment has no move pending and has
read nothing is the model's own (log entries 7 and 17). -/
def Obligations.LaunchStateIsTheResetState : Prop :=
  ∀ l : Launch,
    (¬ l.params.Admitted → State.launch l = none) ∧
    (l.params.Admitted → ∃ s, State.launch l = some s ∧ s.cfg = l.params ∧ s.mem = l.mem ∧
      s.row = l.params.initRow ∧ s.col = l.params.initCol ∧
      s.installed = false ∧ s.fault = 0#4 ∧ s.faultLine = none ∧ s.resp = none ∧ s.trace = [] ∧
      s.crtcIndex = l.crtcIndex ∧ s.cursorHigh = l.cursorHigh ∧ s.cursorLow = l.cursorLow ∧
      s.inputs = [] ∧ s.hostRead = .notYet)

/-- Every command answers a next state, in every state. -/
def Obligations.EveryCommandCompletes : Prop :=
  ∀ (i : Instr) (s : State), ∃ t, exec i s = .next t

/-- A well-formed command on a core that is ready, with the table not yet loaded where it needs that and its buffer
placed where it has one, completes without a fault. -/
def Obligations.WellFormedCommandsDoNotFault : Prop :=
  ∀ (i : Instr) (s : State), s.cfg.Admitted → Ready s → i.wellFormed s.cfg = true →
    (match i with
      | .encode .. => s.installed = false
      | .install => s.installed = false
      | .writeString buf len _ _ => ∃ bs, bs.length = len.toNat ∧ Placed s buf bs
      | _ => True) →
    ∃ t, exec i s = .next t ∧ t.fault = 0#4 ∧ t.faultLine = s.faultLine

/-- A command that faults has no effect but `FAULT` and the line kept beside it, which is its own word (R201). -/
def Obligations.FaultsArePrecise : Prop :=
  ∀ (i : Instr) (s t : State), Ready s → exec i s = .next t → t.fault ≠ 0#4 →
    t = { s with fault := t.fault, faultLine := some (encode i) }

/-- A fault stays until reset: whatever move comes next, a faulted core keeps its own registers, its trace and every byte
of `PTR` and `FB`; of `TBL` only an accessed bit can change. -/
def Obligations.FaultedCoreIsStuck : Prop :=
  ∀ s t : State, s.fault ≠ 0#4 → step s = .next t →
    t = { s with mem := t.mem, inputs := t.inputs, hostRead := t.hostRead } ∧
    (∀ a, s.cfg.InPointer a ∨ s.cfg.InFramebuffer a → byteAt t a = byteAt s a) ∧
    (∀ j < 40, coreByte t (s.cfg.tableBase.toNat + j) &&& tableMask j =
      coreByte s (s.cfg.tableBase.toNat + j) &&& tableMask j)

/-- `INSTALLED` is set by INSTALL alone and never cleared (R23). -/
def Obligations.InstalledIsSetByInstallOnly : Prop :=
  ∀ (i : Instr) (s t : State), exec i s = .next t →
    (t.installed = true ↔ s.installed = true ∨ (i = .install ∧ s.fault = 0#4))

/-- Who writes what: `ROW` and `COL` by WRITE_STRING only (R21, R22, R166), `RESP` by DECODE only (R25), the parameters
by no command (R35). That no command changes the pending moves and the host's last read, the model's own fields, is
the model's choice (log entries 7 and 17). -/
def Obligations.RegistersHaveOneWriter : Prop :=
  ∀ (i : Instr) (s t : State), exec i s = .next t →
    t.cfg = s.cfg ∧ t.inputs = s.inputs ∧ t.hostRead = s.hostRead ∧
    (t.row ≠ s.row ∨ t.col ≠ s.col → ∃ buf len fg bg, i = .writeString buf len fg bg) ∧
    (t.resp ≠ s.resp → ∃ idx, i = .decode idx)

/-- The core writes only the regions it owns (R31, R52): every byte of host memory reads as before. -/
def Obligations.CommandsWriteOnlyOwnedMemory : Prop :=
  ∀ (i : Instr) (s t : State), s.cfg.Admitted → s.row.toNat < 25 → s.col.toNat < 80 → exec i s = .next t →
    ∀ a, ¬ s.cfg.Owned a → byteAt t a = byteAt s a

/-- The two units touch disjoint resources (R61): an encoder command leaves the console's registers, the framebuffer
and the cursor controller, a console command leaves the table, the pointer record, `INSTALLED` and `RESP`. -/
def Obligations.UnitsTouchDisjointResources : Prop :=
  ∀ (i : Instr) (s t : State), s.cfg.Admitted → s.row.toNat < 25 → s.col.toNat < 80 → exec i s = .next t →
    match i with
    | .encode .. | .install | .decode _ =>
      t.row = s.row ∧ t.col = s.col ∧ t.crtcIndex = s.crtcIndex ∧ t.cursorHigh = s.cursorHigh ∧
      t.cursorLow = s.cursorLow ∧ ∀ a, s.cfg.InFramebuffer a → byteAt t a = byteAt s a
    | .writeCell .. | .moveCursor _ | .writeString .. | .scroll | .clearLine _ =>
      t.installed = s.installed ∧ t.resp = s.resp ∧
      ∀ a, s.cfg.InTable a ∨ s.cfg.InPointer a → byteAt t a = byteAt s a

/-- The trace only grows, and the cursor controller is what its new port events make of it (R30, R32). -/
def Obligations.TraceGrowsAndDrivesTheCursor : Prop :=
  ∀ (i : Instr) (s t : State), exec i s = .next t → ∃ new, t.trace = s.trace ++ new ∧
    (t.crtcIndex, t.cursorHigh, t.cursorLow) = replay new (s.crtcIndex, s.cursorHigh, s.cursorLow)

/-! ## The assembler -/

/-- The pseudo-commands (R102): each line stands for its expansion, and is refused where the computed operand does
not fit its field. -/
def Obligations.PseudoCommandsExpand : Prop :=
  (∀ row col ch fg bg : Nat, assemble "PUT_CELL".toList [row, col, ch, fg, bg] =
    assemble "WRITE_CELL".toList [2 * (row * 80 + col), ch, fg, bg]) ∧
  (∀ row col : Nat, assemble "SET_CURSOR".toList [row, col] = assemble "MOVE_CURSOR".toList [row * 80 + col]) ∧
  (∀ pos : Nat, 65536 ≤ pos → assemble "MOVE_CURSOR".toList [pos] = none) ∧
  (∀ off ch fg bg : Nat, 4294967296 ≤ off → assemble "WRITE_CELL".toList [off, ch, fg, bg] = none) ∧
  assembleLine "CLEAR_SCREEN ; all rows".toList = some ((List.range 25).map (fun r => .clearLine (BitVec.ofNat 32 r)))
end

