-- ==== Sys2Proof/Laws/PerInstr.lean ====
section
/-! SUPPORT. Facts about each command as syntax, one lemma per constructor of Instr. Family `ReservedZero`: the word
of a command has none of its format's reserved bits set (30_encoding.md R82 to R88). -/

namespace Sys2Proof.Laws.ReservedZero

/-- The encoding of `i` leaves the reserved bits of its format 0 (R88). -/
def Statement (i : Instr) : Prop := Sys2Proof.encode i &&& reservedMask i = 0#128

theorem encode (idx : BitVec 3) (base : Word32) (limit : BitVec 20) (access : Byte) (flags : BitVec 4) :
    Statement (.encode idx base limit access flags) := by
  apply BitVec.eq_of_getLsbD_eq
  intro k hk
  simp only [Sys2Proof.encode, reservedMask, BitVec.getLsbD_and, BitVec.getLsbD_append]
  interval_cases k <;> simp

theorem install : Statement .install := by unfold Statement; decide

theorem writeCell (off : Word32) (ch : Byte) (fg bg : BitVec 4) : Statement (.writeCell off ch fg bg) := by
  apply BitVec.eq_of_getLsbD_eq
  intro k hk
  simp only [Sys2Proof.encode, reservedMask, BitVec.getLsbD_and, BitVec.getLsbD_append]
  interval_cases k <;> simp

theorem moveCursor (pos : BitVec 16) : Statement (.moveCursor pos) := by
  apply BitVec.eq_of_getLsbD_eq
  intro k hk
  simp only [Sys2Proof.encode, reservedMask, BitVec.getLsbD_and, BitVec.getLsbD_append]
  interval_cases k <;> simp

theorem writeString (buf len : Word32) (fg bg : BitVec 4) : Statement (.writeString buf len fg bg) := by
  apply BitVec.eq_of_getLsbD_eq
  intro k hk
  simp only [Sys2Proof.encode, reservedMask, BitVec.getLsbD_and, BitVec.getLsbD_append]
  interval_cases k <;> simp

theorem scroll : Statement .scroll := by unfold Statement; decide

theorem clearLine (row : Word32) : Statement (.clearLine row) := by
  apply BitVec.eq_of_getLsbD_eq
  intro k hk
  simp only [Sys2Proof.encode, reservedMask, BitVec.getLsbD_and, BitVec.getLsbD_append]
  interval_cases k <;> simp

theorem decode (idx : BitVec 3) : Statement (.decode idx) := by
  apply BitVec.eq_of_getLsbD_eq
  intro k hk
  simp only [Sys2Proof.encode, reservedMask, BitVec.getLsbD_and, BitVec.getLsbD_append]
  interval_cases k <;> simp

end Sys2Proof.Laws.ReservedZero
end

