-- ==== Sys2Proof/Laws/Decode.lean ====
section
/-! SUPPORT. The byte order of a transfer, and what decoding a word comes down to. -/

namespace Sys2Proof

@[simp] theorem leBytes_length (n v : Nat) : (leBytes n v).length = n := by
  induction n generalizing v with
  | zero => rfl
  | succ n ih => simp [leBytes, ih]

/-- The little-endian bytes of a number give it back, up to their count (20_memory.md R50). -/
theorem leNat_leBytes (n v : Nat) : leNat (leBytes n v) = v % 256 ^ n := by
  induction n generalizing v with
  | zero => simp [leBytes, leNat, Nat.mod_one]
  | succ n ih =>
    have e : (256 : Nat) ^ (n + 1) = 256 * 256 ^ n := by ring
    rw [e, Nat.mod_mul]
    simp only [leBytes, leNat, ih, BitVec.toNat_ofNat]

@[simp] theorem transfer_length (w : CommandWord) : (transfer w).length = 16 := leBytes_length _ _

/-- The transfer of a word is read back as that word (30_encoding.md R80). -/
@[simp] theorem ofNat_leNat_transfer (w : CommandWord) : BitVec.ofNat 128 (leNat (transfer w)) = w := by
  apply BitVec.eq_of_toNat_eq
  rw [transfer, leNat_leBytes, BitVec.toNat_ofNat]
  have := w.isLt
  omega

/-- Presenting a word is decoding it. -/
theorem decodeBytes_transfer (w : CommandWord) : decodeBytes (transfer w) = decodeWord w := by
  simp [decodeBytes]

/-- A word decodes to a command exactly when its operands make it and its reserved bits are 0 (R89). -/
theorem decodeWord_eq_ok {w : CommandWord} {i : Instr} :
    decodeWord w = .ok i ↔ operands w = some i ∧ w &&& reservedMask i = 0#128 := by
  unfold decodeWord
  cases h : operands w with
  | none => simp
  | some j =>
    simp only [Option.some.injEq]
    constructor
    · intro h
      split at h
      · cases h; exact ⟨rfl, ‹_›⟩
      · cases h
    · rintro ⟨rfl, h⟩
      rw [if_pos h]

end Sys2Proof
end

