-- ==== Sys2Proof/Laws/State.lean ====
section
/-! SUPPORT. One lemma per field per update of State: each projection of a named update, by unfolding it once,
so that no later proof unfolds a record update. -/

namespace Sys2Proof.Machine

open Sys2Proof.Config

variable (s : State)

/-! ## `storeBytes` -/

@[simp] theorem storeBytes_cfg (a : Nat) (bs : List Byte) : (storeBytes s a bs).cfg = s.cfg := rfl
@[simp] theorem storeBytes_row (a : Nat) (bs : List Byte) : (storeBytes s a bs).row = s.row := rfl
@[simp] theorem storeBytes_col (a : Nat) (bs : List Byte) : (storeBytes s a bs).col = s.col := rfl
@[simp] theorem storeBytes_installed (a : Nat) (bs : List Byte) : (storeBytes s a bs).installed = s.installed := rfl
@[simp] theorem storeBytes_fault (a : Nat) (bs : List Byte) : (storeBytes s a bs).fault = s.fault := rfl
@[simp] theorem storeBytes_faultLine (a : Nat) (bs : List Byte) : (storeBytes s a bs).faultLine = s.faultLine := rfl
@[simp] theorem storeBytes_resp (a : Nat) (bs : List Byte) : (storeBytes s a bs).resp = s.resp := rfl
@[simp] theorem storeBytes_mem (a : Nat) (bs : List Byte) : (storeBytes s a bs).mem = memWrite s.mem a bs := rfl
@[simp] theorem storeBytes_trace (a : Nat) (bs : List Byte) : (storeBytes s a bs).trace = s.trace := rfl
@[simp] theorem storeBytes_crtcIndex (a : Nat) (bs : List Byte) : (storeBytes s a bs).crtcIndex = s.crtcIndex := rfl
@[simp] theorem storeBytes_cursorHigh (a : Nat) (bs : List Byte) : (storeBytes s a bs).cursorHigh = s.cursorHigh := rfl
@[simp] theorem storeBytes_cursorLow (a : Nat) (bs : List Byte) : (storeBytes s a bs).cursorLow = s.cursorLow := rfl
@[simp] theorem storeBytes_inputs (a : Nat) (bs : List Byte) : (storeBytes s a bs).inputs = s.inputs := rfl
@[simp] theorem storeBytes_hostRead (a : Nat) (bs : List Byte) : (storeBytes s a bs).hostRead = s.hostRead := rfl

/-! ## `emit` -/

@[simp] theorem emit_cfg (e : Event) : (emit e s).cfg = s.cfg := rfl
@[simp] theorem emit_row (e : Event) : (emit e s).row = s.row := rfl
@[simp] theorem emit_col (e : Event) : (emit e s).col = s.col := rfl
@[simp] theorem emit_installed (e : Event) : (emit e s).installed = s.installed := rfl
@[simp] theorem emit_fault (e : Event) : (emit e s).fault = s.fault := rfl
@[simp] theorem emit_faultLine (e : Event) : (emit e s).faultLine = s.faultLine := rfl
@[simp] theorem emit_resp (e : Event) : (emit e s).resp = s.resp := rfl
@[simp] theorem emit_mem (e : Event) : (emit e s).mem = s.mem := rfl
@[simp] theorem emit_trace (e : Event) : (emit e s).trace = s.trace ++ [e] := rfl
@[simp] theorem emit_crtcIndex (e : Event) : (emit e s).crtcIndex = s.crtcIndex := rfl
@[simp] theorem emit_cursorHigh (e : Event) : (emit e s).cursorHigh = s.cursorHigh := rfl
@[simp] theorem emit_cursorLow (e : Event) : (emit e s).cursorLow = s.cursorLow := rfl
@[simp] theorem emit_inputs (e : Event) : (emit e s).inputs = s.inputs := rfl
@[simp] theorem emit_hostRead (e : Event) : (emit e s).hostRead = s.hostRead := rfl

/-! ## `raise` -/

@[simp] theorem raise_cfg (c : Cause) (w : CommandWord) : (raise c w s).cfg = s.cfg := rfl
@[simp] theorem raise_row (c : Cause) (w : CommandWord) : (raise c w s).row = s.row := rfl
@[simp] theorem raise_col (c : Cause) (w : CommandWord) : (raise c w s).col = s.col := rfl
@[simp] theorem raise_installed (c : Cause) (w : CommandWord) : (raise c w s).installed = s.installed := rfl
@[simp] theorem raise_fault (c : Cause) (w : CommandWord) : (raise c w s).fault = c.code := rfl
@[simp] theorem raise_faultLine (c : Cause) (w : CommandWord) : (raise c w s).faultLine = some w := rfl
@[simp] theorem raise_resp (c : Cause) (w : CommandWord) : (raise c w s).resp = s.resp := rfl
@[simp] theorem raise_mem (c : Cause) (w : CommandWord) : (raise c w s).mem = s.mem := rfl
@[simp] theorem raise_trace (c : Cause) (w : CommandWord) : (raise c w s).trace = s.trace := rfl
@[simp] theorem raise_crtcIndex (c : Cause) (w : CommandWord) : (raise c w s).crtcIndex = s.crtcIndex := rfl
@[simp] theorem raise_cursorHigh (c : Cause) (w : CommandWord) : (raise c w s).cursorHigh = s.cursorHigh := rfl
@[simp] theorem raise_cursorLow (c : Cause) (w : CommandWord) : (raise c w s).cursorLow = s.cursorLow := rfl
@[simp] theorem raise_inputs (c : Cause) (w : CommandWord) : (raise c w s).inputs = s.inputs := rfl
@[simp] theorem raise_hostRead (c : Cause) (w : CommandWord) : (raise c w s).hostRead = s.hostRead := rfl

/-! ## `encodeEntry` -/

@[simp] theorem encodeEntry_cfg (n : Nat) (d : Descriptor) : (encodeEntry n d s).cfg = s.cfg := rfl
@[simp] theorem encodeEntry_row (n : Nat) (d : Descriptor) : (encodeEntry n d s).row = s.row := rfl
@[simp] theorem encodeEntry_col (n : Nat) (d : Descriptor) : (encodeEntry n d s).col = s.col := rfl
@[simp] theorem encodeEntry_installed (n : Nat) (d : Descriptor) : (encodeEntry n d s).installed = s.installed := rfl
@[simp] theorem encodeEntry_fault (n : Nat) (d : Descriptor) : (encodeEntry n d s).fault = s.fault := rfl
@[simp] theorem encodeEntry_faultLine (n : Nat) (d : Descriptor) : (encodeEntry n d s).faultLine = s.faultLine := rfl
@[simp] theorem encodeEntry_resp (n : Nat) (d : Descriptor) : (encodeEntry n d s).resp = s.resp := rfl
@[simp] theorem encodeEntry_mem (n : Nat) (d : Descriptor) : (encodeEntry n d s).mem = memWrite s.mem (entryAddress s.cfg n) (descriptorBytes d) := rfl
@[simp] theorem encodeEntry_trace (n : Nat) (d : Descriptor) : (encodeEntry n d s).trace = s.trace := rfl
@[simp] theorem encodeEntry_crtcIndex (n : Nat) (d : Descriptor) : (encodeEntry n d s).crtcIndex = s.crtcIndex := rfl
@[simp] theorem encodeEntry_cursorHigh (n : Nat) (d : Descriptor) : (encodeEntry n d s).cursorHigh = s.cursorHigh := rfl
@[simp] theorem encodeEntry_cursorLow (n : Nat) (d : Descriptor) : (encodeEntry n d s).cursorLow = s.cursorLow := rfl
@[simp] theorem encodeEntry_inputs (n : Nat) (d : Descriptor) : (encodeEntry n d s).inputs = s.inputs := rfl
@[simp] theorem encodeEntry_hostRead (n : Nat) (d : Descriptor) : (encodeEntry n d s).hostRead = s.hostRead := rfl

/-! ## `scrollUp` -/

@[simp] theorem scrollUp_cfg : (scrollUp s).cfg = s.cfg := rfl
@[simp] theorem scrollUp_row : (scrollUp s).row = s.row := rfl
@[simp] theorem scrollUp_col : (scrollUp s).col = s.col := rfl
@[simp] theorem scrollUp_installed : (scrollUp s).installed = s.installed := rfl
@[simp] theorem scrollUp_fault : (scrollUp s).fault = s.fault := rfl
@[simp] theorem scrollUp_faultLine : (scrollUp s).faultLine = s.faultLine := rfl
@[simp] theorem scrollUp_resp : (scrollUp s).resp = s.resp := rfl
@[simp] theorem scrollUp_mem : (scrollUp s).mem = memWrite s.mem fbBase (coreBytes s (fbBase + rowBytes) (gridBytes - rowBytes)) := rfl
@[simp] theorem scrollUp_trace : (scrollUp s).trace = s.trace := rfl
@[simp] theorem scrollUp_crtcIndex : (scrollUp s).crtcIndex = s.crtcIndex := rfl
@[simp] theorem scrollUp_cursorHigh : (scrollUp s).cursorHigh = s.cursorHigh := rfl
@[simp] theorem scrollUp_cursorLow : (scrollUp s).cursorLow = s.cursorLow := rfl
@[simp] theorem scrollUp_inputs : (scrollUp s).inputs = s.inputs := rfl
@[simp] theorem scrollUp_hostRead : (scrollUp s).hostRead = s.hostRead := rfl

/-! ## `blankLine` -/

@[simp] theorem blankLine_cfg (r : Nat) : (blankLine r s).cfg = s.cfg := rfl
@[simp] theorem blankLine_row (r : Nat) : (blankLine r s).row = s.row := rfl
@[simp] theorem blankLine_col (r : Nat) : (blankLine r s).col = s.col := rfl
@[simp] theorem blankLine_installed (r : Nat) : (blankLine r s).installed = s.installed := rfl
@[simp] theorem blankLine_fault (r : Nat) : (blankLine r s).fault = s.fault := rfl
@[simp] theorem blankLine_faultLine (r : Nat) : (blankLine r s).faultLine = s.faultLine := rfl
@[simp] theorem blankLine_resp (r : Nat) : (blankLine r s).resp = s.resp := rfl
@[simp] theorem blankLine_mem (r : Nat) : (blankLine r s).mem = memWrite s.mem (fbBase + rowBytes * r) (blankRow s.cfg) := rfl
@[simp] theorem blankLine_trace (r : Nat) : (blankLine r s).trace = s.trace := rfl
@[simp] theorem blankLine_crtcIndex (r : Nat) : (blankLine r s).crtcIndex = s.crtcIndex := rfl
@[simp] theorem blankLine_cursorHigh (r : Nat) : (blankLine r s).cursorHigh = s.cursorHigh := rfl
@[simp] theorem blankLine_cursorLow (r : Nat) : (blankLine r s).cursorLow = s.cursorLow := rfl
@[simp] theorem blankLine_inputs (r : Nat) : (blankLine r s).inputs = s.inputs := rfl
@[simp] theorem blankLine_hostRead (r : Nat) : (blankLine r s).hostRead = s.hostRead := rfl

/-! ## `controllerWrite` -/

@[simp] theorem controllerWrite_cfg (port : PortNum) (b : Byte) : (controllerWrite port b s).cfg = s.cfg := by
  unfold controllerWrite; split_ifs <;> rfl
@[simp] theorem controllerWrite_row (port : PortNum) (b : Byte) : (controllerWrite port b s).row = s.row := by
  unfold controllerWrite; split_ifs <;> rfl
@[simp] theorem controllerWrite_col (port : PortNum) (b : Byte) : (controllerWrite port b s).col = s.col := by
  unfold controllerWrite; split_ifs <;> rfl
@[simp] theorem controllerWrite_installed (port : PortNum) (b : Byte) : (controllerWrite port b s).installed = s.installed := by
  unfold controllerWrite; split_ifs <;> rfl
@[simp] theorem controllerWrite_fault (port : PortNum) (b : Byte) : (controllerWrite port b s).fault = s.fault := by
  unfold controllerWrite; split_ifs <;> rfl
@[simp] theorem controllerWrite_faultLine (port : PortNum) (b : Byte) : (controllerWrite port b s).faultLine = s.faultLine := by
  unfold controllerWrite; split_ifs <;> rfl
@[simp] theorem controllerWrite_resp (port : PortNum) (b : Byte) : (controllerWrite port b s).resp = s.resp := by
  unfold controllerWrite; split_ifs <;> rfl
@[simp] theorem controllerWrite_mem (port : PortNum) (b : Byte) : (controllerWrite port b s).mem = s.mem := by
  unfold controllerWrite; split_ifs <;> rfl
@[simp] theorem controllerWrite_trace (port : PortNum) (b : Byte) : (controllerWrite port b s).trace = s.trace := by
  unfold controllerWrite; split_ifs <;> rfl
@[simp] theorem controllerWrite_inputs (port : PortNum) (b : Byte) : (controllerWrite port b s).inputs = s.inputs := by
  unfold controllerWrite; split_ifs <;> rfl
@[simp] theorem controllerWrite_hostRead (port : PortNum) (b : Byte) : (controllerWrite port b s).hostRead = s.hostRead := by
  unfold controllerWrite; split_ifs <;> rfl

/-! ## `portWrite` -/

@[simp] theorem portWrite_cfg (port : PortNum) (b : Byte) : (portWrite port b s).cfg = s.cfg := by simp [portWrite]
@[simp] theorem portWrite_row (port : PortNum) (b : Byte) : (portWrite port b s).row = s.row := by simp [portWrite]
@[simp] theorem portWrite_col (port : PortNum) (b : Byte) : (portWrite port b s).col = s.col := by simp [portWrite]
@[simp] theorem portWrite_installed (port : PortNum) (b : Byte) : (portWrite port b s).installed = s.installed := by simp [portWrite]
@[simp] theorem portWrite_fault (port : PortNum) (b : Byte) : (portWrite port b s).fault = s.fault := by simp [portWrite]
@[simp] theorem portWrite_faultLine (port : PortNum) (b : Byte) : (portWrite port b s).faultLine = s.faultLine := by simp [portWrite]
@[simp] theorem portWrite_resp (port : PortNum) (b : Byte) : (portWrite port b s).resp = s.resp := by simp [portWrite]
@[simp] theorem portWrite_mem (port : PortNum) (b : Byte) : (portWrite port b s).mem = s.mem := by simp [portWrite]
@[simp] theorem portWrite_trace (port : PortNum) (b : Byte) : (portWrite port b s).trace = s.trace ++ [.port port b] := by simp [portWrite]
@[simp] theorem portWrite_inputs (port : PortNum) (b : Byte) : (portWrite port b s).inputs = s.inputs := by simp [portWrite]
@[simp] theorem portWrite_hostRead (port : PortNum) (b : Byte) : (portWrite port b s).hostRead = s.hostRead := by simp [portWrite]

/-! ## `cursorTo` -/

@[simp] theorem cursorTo_cfg (pos : BitVec 16) : (cursorTo pos s).cfg = s.cfg := by simp [cursorTo]
@[simp] theorem cursorTo_row (pos : BitVec 16) : (cursorTo pos s).row = s.row := by simp [cursorTo]
@[simp] theorem cursorTo_col (pos : BitVec 16) : (cursorTo pos s).col = s.col := by simp [cursorTo]
@[simp] theorem cursorTo_installed (pos : BitVec 16) : (cursorTo pos s).installed = s.installed := by simp [cursorTo]
@[simp] theorem cursorTo_fault (pos : BitVec 16) : (cursorTo pos s).fault = s.fault := by simp [cursorTo]
@[simp] theorem cursorTo_faultLine (pos : BitVec 16) : (cursorTo pos s).faultLine = s.faultLine := by simp [cursorTo]
@[simp] theorem cursorTo_resp (pos : BitVec 16) : (cursorTo pos s).resp = s.resp := by simp [cursorTo]
@[simp] theorem cursorTo_mem (pos : BitVec 16) : (cursorTo pos s).mem = s.mem := by simp [cursorTo]
@[simp] theorem cursorTo_inputs (pos : BitVec 16) : (cursorTo pos s).inputs = s.inputs := by simp [cursorTo]
@[simp] theorem cursorTo_hostRead (pos : BitVec 16) : (cursorTo pos s).hostRead = s.hostRead := by simp [cursorTo]

@[simp] theorem cursorTo_trace (pos : BitVec 16) : (cursorTo pos s).trace = s.trace ++
    [.port cursorCmdPort cursorHighCmd, .port cursorDataPort (pos.extractLsb' 8 8),
     .port cursorCmdPort cursorLowCmd, .port cursorDataPort (pos.extractLsb' 0 8)] := by
  simp [cursorTo]
@[simp] theorem cursorTo_crtcIndex (pos : BitVec 16) : (cursorTo pos s).crtcIndex = cursorLowCmd := by
  simp [cursorTo, portWrite, controllerWrite, emit, cursorCmdPort, cursorDataPort, cursorHighCmd, cursorLowCmd]
@[simp] theorem cursorTo_cursorHigh (pos : BitVec 16) : (cursorTo pos s).cursorHigh = pos.extractLsb' 8 8 := by
  simp [cursorTo, portWrite, controllerWrite, emit, cursorCmdPort, cursorDataPort, cursorHighCmd, cursorLowCmd]
@[simp] theorem cursorTo_cursorLow (pos : BitVec 16) : (cursorTo pos s).cursorLow = pos.extractLsb' 0 8 := by
  simp [cursorTo, portWrite, controllerWrite, emit, cursorCmdPort, cursorDataPort, cursorHighCmd, cursorLowCmd]

/-! ## `putCell` -/

@[simp] theorem putCell_cfg (i : Word32) (ch : Byte) (fg bg : BitVec 4) : (putCell i ch fg bg s).cfg = s.cfg := by
  unfold putCell; split <;> rfl
@[simp] theorem putCell_row (i : Word32) (ch : Byte) (fg bg : BitVec 4) : (putCell i ch fg bg s).row = s.row := by
  unfold putCell; split <;> rfl
@[simp] theorem putCell_col (i : Word32) (ch : Byte) (fg bg : BitVec 4) : (putCell i ch fg bg s).col = s.col := by
  unfold putCell; split <;> rfl
@[simp] theorem putCell_installed (i : Word32) (ch : Byte) (fg bg : BitVec 4) : (putCell i ch fg bg s).installed = s.installed := by
  unfold putCell; split <;> rfl
@[simp] theorem putCell_fault (i : Word32) (ch : Byte) (fg bg : BitVec 4) : (putCell i ch fg bg s).fault = s.fault := by
  unfold putCell; split <;> rfl
@[simp] theorem putCell_faultLine (i : Word32) (ch : Byte) (fg bg : BitVec 4) : (putCell i ch fg bg s).faultLine = s.faultLine := by
  unfold putCell; split <;> rfl
@[simp] theorem putCell_resp (i : Word32) (ch : Byte) (fg bg : BitVec 4) : (putCell i ch fg bg s).resp = s.resp := by
  unfold putCell; split <;> rfl
@[simp] theorem putCell_crtcIndex (i : Word32) (ch : Byte) (fg bg : BitVec 4) : (putCell i ch fg bg s).crtcIndex = s.crtcIndex := by
  unfold putCell; split <;> rfl
@[simp] theorem putCell_cursorHigh (i : Word32) (ch : Byte) (fg bg : BitVec 4) : (putCell i ch fg bg s).cursorHigh = s.cursorHigh := by
  unfold putCell; split <;> rfl
@[simp] theorem putCell_cursorLow (i : Word32) (ch : Byte) (fg bg : BitVec 4) : (putCell i ch fg bg s).cursorLow = s.cursorLow := by
  unfold putCell; split <;> rfl
@[simp] theorem putCell_inputs (i : Word32) (ch : Byte) (fg bg : BitVec 4) : (putCell i ch fg bg s).inputs = s.inputs := by
  unfold putCell; split <;> rfl
@[simp] theorem putCell_hostRead (i : Word32) (ch : Byte) (fg bg : BitVec 4) : (putCell i ch fg bg s).hostRead = s.hostRead := by
  unfold putCell; split <;> rfl

@[simp] theorem putCell_mem (i : Word32) (ch : Byte) (fg bg : BitVec 4) : (putCell i ch fg bg s).mem =
    if s.cfg.fbSize.toNat ≤ i.toNat then s.mem else memWrite s.mem (fbBase + i.toNat) [ch, attrByte fg bg] := by
  unfold putCell; split <;> rfl
@[simp] theorem putCell_trace (i : Word32) (ch : Byte) (fg bg : BitVec 4) : (putCell i ch fg bg s).trace =
    if s.cfg.fbSize.toNat ≤ i.toNat then s.trace ++ [.cellDiscard i] else s.trace := by
  unfold putCell; split <;> rfl

/-! ## `overflowCheck` -/

@[simp] theorem overflowCheck_cfg : (overflowCheck s).cfg = s.cfg := by
  unfold overflowCheck; split <;> rfl
@[simp] theorem overflowCheck_row : (overflowCheck s).row = if fbHeight ≤ s.row.toNat then BitVec.ofNat 32 (fbHeight - 1) else s.row := by
  unfold overflowCheck; split <;> rfl
@[simp] theorem overflowCheck_col : (overflowCheck s).col = s.col := by
  unfold overflowCheck; split <;> rfl
@[simp] theorem overflowCheck_installed : (overflowCheck s).installed = s.installed := by
  unfold overflowCheck; split <;> rfl
@[simp] theorem overflowCheck_fault : (overflowCheck s).fault = s.fault := by
  unfold overflowCheck; split <;> rfl
@[simp] theorem overflowCheck_faultLine : (overflowCheck s).faultLine = s.faultLine := by
  unfold overflowCheck; split <;> rfl
@[simp] theorem overflowCheck_resp : (overflowCheck s).resp = s.resp := by
  unfold overflowCheck; split <;> rfl
@[simp] theorem overflowCheck_trace : (overflowCheck s).trace = s.trace := by
  unfold overflowCheck; split <;> rfl
@[simp] theorem overflowCheck_crtcIndex : (overflowCheck s).crtcIndex = s.crtcIndex := by
  unfold overflowCheck; split <;> rfl
@[simp] theorem overflowCheck_cursorHigh : (overflowCheck s).cursorHigh = s.cursorHigh := by
  unfold overflowCheck; split <;> rfl
@[simp] theorem overflowCheck_cursorLow : (overflowCheck s).cursorLow = s.cursorLow := by
  unfold overflowCheck; split <;> rfl
@[simp] theorem overflowCheck_inputs : (overflowCheck s).inputs = s.inputs := by
  unfold overflowCheck; split <;> rfl
@[simp] theorem overflowCheck_hostRead : (overflowCheck s).hostRead = s.hostRead := by
  unfold overflowCheck; split <;> rfl

/-! ## `advance` -/

@[simp] theorem advance_cfg : (advance s).cfg = s.cfg := by
  unfold advance; split <;> rfl
@[simp] theorem advance_row : (advance s).row = if s.col + 1#32 = BitVec.ofNat 32 fbWidth then s.row + 1#32 else s.row := by
  unfold advance; split <;> rfl
@[simp] theorem advance_col : (advance s).col = if s.col + 1#32 = BitVec.ofNat 32 fbWidth then 0#32 else s.col + 1#32 := by
  unfold advance; split <;> rfl
@[simp] theorem advance_installed : (advance s).installed = s.installed := by
  unfold advance; split <;> rfl
@[simp] theorem advance_fault : (advance s).fault = s.fault := by
  unfold advance; split <;> rfl
@[simp] theorem advance_faultLine : (advance s).faultLine = s.faultLine := by
  unfold advance; split <;> rfl
@[simp] theorem advance_resp : (advance s).resp = s.resp := by
  unfold advance; split <;> rfl
@[simp] theorem advance_mem : (advance s).mem = s.mem := by
  unfold advance; split <;> rfl
@[simp] theorem advance_trace : (advance s).trace = s.trace := by
  unfold advance; split <;> rfl
@[simp] theorem advance_crtcIndex : (advance s).crtcIndex = s.crtcIndex := by
  unfold advance; split <;> rfl
@[simp] theorem advance_cursorHigh : (advance s).cursorHigh = s.cursorHigh := by
  unfold advance; split <;> rfl
@[simp] theorem advance_cursorLow : (advance s).cursorLow = s.cursorLow := by
  unfold advance; split <;> rfl
@[simp] theorem advance_inputs : (advance s).inputs = s.inputs := by
  unfold advance; split <;> rfl
@[simp] theorem advance_hostRead : (advance s).hostRead = s.hostRead := by
  unfold advance; split <;> rfl

/-! ## `breakPass` -/

@[simp] theorem breakPass_cfg : (breakPass s).cfg = s.cfg := by simp [breakPass]
@[simp] theorem breakPass_col : (breakPass s).col = 0#32 := by simp [breakPass]
@[simp] theorem breakPass_installed : (breakPass s).installed = s.installed := by simp [breakPass]
@[simp] theorem breakPass_fault : (breakPass s).fault = s.fault := by simp [breakPass]
@[simp] theorem breakPass_faultLine : (breakPass s).faultLine = s.faultLine := by simp [breakPass]
@[simp] theorem breakPass_resp : (breakPass s).resp = s.resp := by simp [breakPass]
@[simp] theorem breakPass_trace : (breakPass s).trace = s.trace := by simp [breakPass]
@[simp] theorem breakPass_crtcIndex : (breakPass s).crtcIndex = s.crtcIndex := by simp [breakPass]
@[simp] theorem breakPass_cursorHigh : (breakPass s).cursorHigh = s.cursorHigh := by simp [breakPass]
@[simp] theorem breakPass_cursorLow : (breakPass s).cursorLow = s.cursorLow := by simp [breakPass]
@[simp] theorem breakPass_inputs : (breakPass s).inputs = s.inputs := by simp [breakPass]
@[simp] theorem breakPass_hostRead : (breakPass s).hostRead = s.hostRead := by simp [breakPass]

/-! ## `printPass` -/

@[simp] theorem printPass_cfg (fg bg : BitVec 4) (b : Byte) : (printPass fg bg b s).cfg = s.cfg := by simp [printPass]
@[simp] theorem printPass_installed (fg bg : BitVec 4) (b : Byte) : (printPass fg bg b s).installed = s.installed := by simp [printPass]
@[simp] theorem printPass_fault (fg bg : BitVec 4) (b : Byte) : (printPass fg bg b s).fault = s.fault := by simp [printPass]
@[simp] theorem printPass_faultLine (fg bg : BitVec 4) (b : Byte) : (printPass fg bg b s).faultLine = s.faultLine := by simp [printPass]
@[simp] theorem printPass_resp (fg bg : BitVec 4) (b : Byte) : (printPass fg bg b s).resp = s.resp := by simp [printPass]
@[simp] theorem printPass_inputs (fg bg : BitVec 4) (b : Byte) : (printPass fg bg b s).inputs = s.inputs := by simp [printPass]
@[simp] theorem printPass_hostRead (fg bg : BitVec 4) (b : Byte) : (printPass fg bg b s).hostRead = s.hostRead := by simp [printPass]

/-! ## `writeTables` -/

@[simp] theorem writeTables_cfg : (writeTables s).cfg = s.cfg := by simp [writeTables]
@[simp] theorem writeTables_row : (writeTables s).row = s.row := by simp [writeTables]
@[simp] theorem writeTables_col : (writeTables s).col = s.col := by simp [writeTables]
@[simp] theorem writeTables_installed : (writeTables s).installed = s.installed := by simp [writeTables]
@[simp] theorem writeTables_fault : (writeTables s).fault = s.fault := by simp [writeTables]
@[simp] theorem writeTables_faultLine : (writeTables s).faultLine = s.faultLine := by simp [writeTables]
@[simp] theorem writeTables_resp : (writeTables s).resp = s.resp := by simp [writeTables]
@[simp] theorem writeTables_trace : (writeTables s).trace = s.trace := by simp [writeTables]
@[simp] theorem writeTables_crtcIndex : (writeTables s).crtcIndex = s.crtcIndex := by simp [writeTables]
@[simp] theorem writeTables_cursorHigh : (writeTables s).cursorHigh = s.cursorHigh := by simp [writeTables]
@[simp] theorem writeTables_cursorLow : (writeTables s).cursorLow = s.cursorLow := by simp [writeTables]
@[simp] theorem writeTables_inputs : (writeTables s).inputs = s.inputs := by simp [writeTables]
@[simp] theorem writeTables_hostRead : (writeTables s).hostRead = s.hostRead := by simp [writeTables]

/-! ## `requestLoad` -/

@[simp] theorem requestLoad_cfg : (requestLoad s).cfg = s.cfg := rfl
@[simp] theorem requestLoad_row : (requestLoad s).row = s.row := rfl
@[simp] theorem requestLoad_col : (requestLoad s).col = s.col := rfl
@[simp] theorem requestLoad_installed : (requestLoad s).installed = true := rfl
@[simp] theorem requestLoad_fault : (requestLoad s).fault = s.fault := rfl
@[simp] theorem requestLoad_faultLine : (requestLoad s).faultLine = s.faultLine := rfl
@[simp] theorem requestLoad_resp : (requestLoad s).resp = s.resp := rfl
@[simp] theorem requestLoad_mem : (requestLoad s).mem = s.mem := rfl
@[simp] theorem requestLoad_crtcIndex : (requestLoad s).crtcIndex = s.crtcIndex := rfl
@[simp] theorem requestLoad_cursorHigh : (requestLoad s).cursorHigh = s.cursorHigh := rfl
@[simp] theorem requestLoad_cursorLow : (requestLoad s).cursorLow = s.cursorLow := rfl
@[simp] theorem requestLoad_inputs : (requestLoad s).inputs = s.inputs := rfl
@[simp] theorem requestLoad_hostRead : (requestLoad s).hostRead = s.hostRead := rfl

end Sys2Proof.Machine
end

