-- ==== Sys2Proof/Laws/Memory.lean ====
section
/-! SUPPORT. The laws of memory: what a byte reads as after a write, that every write keeps the canonical form,
and the same for the two views of a byte in a state. -/

namespace Sys2Proof.Machine

open Sys2Proof.Config

/-! ## Reading a list of cells -/

@[simp] theorem memGet_nil (x : Nat) : memGet [] x = none := rfl

theorem memGet_cons (c : Host.Cell) (m : Memory) (x : Nat) :
    memGet (c :: m) x = if c.1 = x then some c.2 else memGet m x := rfl

theorem memGet_append (m n : Memory) (x : Nat) : memGet (m ++ n) x = (memGet m x).or (memGet n x) := by
  induction m with
  | nil => simp
  | cons c m ih =>
    simp only [List.cons_append, memGet_cons, ih]
    split <;> simp

/-- A cell list answers nothing at an address no cell has. -/
theorem memGet_eq_none {m : Memory} {x : Nat} (h : ∀ c ∈ m, c.1 ≠ x) : memGet m x = none := by
  induction m with
  | nil => rfl
  | cons c m ih =>
    simp only [List.mem_cons, forall_eq_or_imp] at h
    simp [memGet_cons, h.1, ih h.2]

/-- Keeping only cells by their address answers the same at the addresses kept, nothing elsewhere. -/
theorem memGet_filter (p : Nat → Bool) (m : Memory) (x : Nat) :
    memGet (m.filter (fun c => p c.1)) x = if p x then memGet m x else none := by
  induction m with
  | nil => simp
  | cons c m ih =>
    by_cases hc : p c.1 = true
    · simp only [List.filter_cons, hc, if_true, memGet_cons, ih]
      by_cases hx : c.1 = x
      · simp [hx, hx ▸ hc]
      · simp [hx]
    · rw [Bool.not_eq_true] at hc
      simp only [List.filter_cons, hc, Bool.false_eq_true, if_false, ih, memGet_cons]
      by_cases hx : c.1 = x
      · subst hx; simp [hc]
      · simp [hx]

@[simp] theorem cellsAt_length (a : Nat) (bs : List Byte) : (cellsAt a bs).length = bs.length := by
  induction bs generalizing a with
  | nil => rfl
  | cons b bs ih => simp [cellsAt, ih]

theorem cellsAt_bounds {a : Nat} {bs : List Byte} {c : Host.Cell} (h : c ∈ cellsAt a bs) :
    a ≤ c.1 ∧ c.1 < a + bs.length := by
  induction bs generalizing a with
  | nil => simp [cellsAt] at h
  | cons b bs ih =>
    simp only [cellsAt, List.mem_cons] at h
    rcases h with rfl | h
    · simp
    · have := ih h
      simp only [List.length_cons]; omega

theorem memGet_cellsAt (a : Nat) (bs : List Byte) (x : Nat) :
    memGet (cellsAt a bs) x = if a ≤ x then bs[x - a]? else none := by
  induction bs generalizing a with
  | nil => simp [cellsAt]
  | cons b bs ih =>
    simp only [cellsAt, memGet_cons, ih]
    by_cases h : a = x
    · subst h; simp
    · by_cases h2 : a + 1 ≤ x
      · have e : x - a = (x - (a + 1)) + 1 := by omega
        simp [h, h2, show a ≤ x by omega, e]
      · simp [h, h2, show ¬ a ≤ x by omega]

/-- Read after write: a written address answers its new byte, every other address what it answered before. -/
theorem memGet_memWrite (m : Memory) (a : Nat) (bs : List Byte) (x : Nat) :
    memGet (memWrite m a bs) x = if a ≤ x ∧ x < a + bs.length then bs[x - a]? else memGet m x := by
  simp only [memWrite, memGet_append, memGet_cellsAt,
    memGet_filter (fun k => decide (k < a)), memGet_filter (fun k => decide (a + bs.length ≤ k)), decide_eq_true_eq]
  by_cases h1 : x < a
  · simp [h1, show ¬ a ≤ x by omega, show ¬ a + bs.length ≤ x by omega]
  · by_cases h2 : x < a + bs.length
    · have : x - a < bs.length := by omega
      simp [h1, h2, show a ≤ x by omega, show ¬ a + bs.length ≤ x by omega, this]
    · have : bs[x - a]? = none := by simp; omega
      simp [h1, h2, show a ≤ x by omega, show a + bs.length ≤ x by omega, this]

/-- An address outside the written run answers what it answered before. -/
theorem memGet_memWrite_of_outside {m : Memory} {a : Nat} {bs : List Byte} {x : Nat}
    (h : x < a ∨ a + bs.length ≤ x) : memGet (memWrite m a bs) x = memGet m x := by
  rw [memGet_memWrite, if_neg (by omega)]

/-! ## The canonical form -/

theorem cellsAt_pairwise (a : Nat) (bs : List Byte) : (cellsAt a bs).Pairwise (fun c d => c.1 < d.1) := by
  induction bs generalizing a with
  | nil => exact .nil
  | cons b bs ih =>
    refine .cons (fun c hc => ?_) (ih (a + 1))
    have := (cellsAt_bounds hc).1
    simp only; omega

/-- A write inside the address space keeps the canonical form. -/
theorem memWrite_wf {m : Memory} {a : Nat} {bs : List Byte} (h : Memory.wf m) (hb : a + bs.length ≤ addrSpace) :
    Memory.wf (memWrite m a bs) := by
  obtain ⟨hp, hm⟩ := h
  refine ⟨?_, ?_⟩
  · simp only [memWrite, List.pairwise_append, List.mem_filter, List.mem_append, decide_eq_true_eq]
    refine ⟨hp.filter _, ⟨cellsAt_pairwise a bs, hp.filter _, ?_⟩, ?_⟩
    · intro c hc d hd
      have := (cellsAt_bounds hc).2
      omega
    · rintro c ⟨-, hc⟩ d (hd | ⟨-, hd⟩)
      · have := (cellsAt_bounds hd).1
        omega
      · omega
  · intro c hc
    simp only [memWrite, List.mem_append, List.mem_filter, decide_eq_true_eq] at hc
    rcases hc with ⟨hc, -⟩ | hc | ⟨hc, -⟩
    · exact hm c hc
    · have := (cellsAt_bounds hc).2
      omega
    · exact hm c hc

/-- Two runs written one after the other, the second just above the first, are one run. -/
theorem memWrite_memWrite (m : Memory) (a : Nat) (bs cs : List Byte) :
    memWrite (memWrite m a bs) (a + bs.length) cs = memWrite m a (bs ++ cs) := by
  have hcells : ∀ (a : Nat) (bs cs : List Byte), cellsAt a (bs ++ cs) = cellsAt a bs ++ cellsAt (a + bs.length) cs := by
    intro a bs cs
    induction bs generalizing a with
    | nil => rfl
    | cons b bs ih =>
      simp only [List.cons_append, cellsAt, ih, List.length_cons, List.cons.injEq, true_and]
      congr 2; omega
  have h1 : (memWrite m a bs).filter (fun c => decide (c.1 < a + bs.length)) =
      m.filter (fun c => decide (c.1 < a)) ++ cellsAt a bs := by
    simp only [memWrite, List.filter_append, List.filter_filter]
    have e1 : m.filter (fun c => decide (c.1 < a + bs.length) && decide (c.1 < a)) =
        m.filter (fun c => decide (c.1 < a)) := by
      apply List.filter_congr; intro c _; simp; omega
    have e2 : (cellsAt a bs).filter (fun c => decide (c.1 < a + bs.length)) = cellsAt a bs := by
      apply List.filter_eq_self.mpr; intro c hc; simpa using (cellsAt_bounds hc).2
    have e3 : m.filter (fun c => decide (c.1 < a + bs.length) && decide (a + bs.length ≤ c.1)) = [] := by
      apply List.filter_eq_nil_iff.mpr; intro c _; simp
    simp [e1, e2, e3]
  have h2 : (memWrite m a bs).filter (fun c => decide (a + bs.length + cs.length ≤ c.1)) =
      m.filter (fun c => decide (a + (bs ++ cs).length ≤ c.1)) := by
    simp only [memWrite, List.filter_append, List.filter_filter, List.length_append]
    have e1 : m.filter (fun c => decide (a + bs.length + cs.length ≤ c.1) && decide (c.1 < a)) = [] := by
      apply List.filter_eq_nil_iff.mpr; intro c _; simp; omega
    have e2 : (cellsAt a bs).filter (fun c => decide (a + bs.length + cs.length ≤ c.1)) = [] := by
      apply List.filter_eq_nil_iff.mpr; intro c hc; have := (cellsAt_bounds hc).2; simp; omega
    rw [e1, e2]
    simp only [List.nil_append]
    refine List.filter_congr fun c _ => ?_
    rw [← Bool.decide_and]; exact decide_eq_decide.mpr (by omega)
  conv_lhs => rw [memWrite, h1, h2]
  rw [memWrite, hcells]
  simp

/-! ## A byte of a state -/

theorem coreByte_storeBytes (s : State) (a : Nat) (bs : List Byte) (x : Nat) :
    coreByte (storeBytes s a bs) x = if a ≤ x ∧ x < a + bs.length then bs[x - a]?.getD (launchByte x) else coreByte s x := by
  simp only [coreByte, storeBytes_mem, memGet_memWrite]
  split <;> rfl

theorem byteAt_storeBytes (s : State) (a : Nat) (bs : List Byte) (x : Nat) :
    byteAt (storeBytes s a bs) x = if a ≤ x ∧ x < a + bs.length then bs[x - a]? else byteAt s x := by
  simp only [byteAt, storeBytes_mem, storeBytes_cfg, memGet_memWrite]
  by_cases h : a ≤ x ∧ x < a + bs.length
  · have : x - a < bs.length := by omega
    simp [h, this]
  · rw [if_neg h, if_neg h]

/-- `byteAt` depends on the parameters and the memory alone. -/
theorem byteAt_congr {s t : State} (hc : t.cfg = s.cfg) (hm : t.mem = s.mem) : byteAt t = byteAt s := by
  funext a; simp only [byteAt, hc, hm]

/-- A core-owned byte always has a value, the one the core reads. -/
theorem byteAt_of_owned {s : State} {a : Nat} (h : s.cfg.Owned a) : byteAt s a = some (coreByte s a) := by
  simp only [byteAt, coreByte, unlistedByte, if_pos h]
  cases memGet s.mem a <;> simp

/-- A listed byte is what memory reads as. -/
theorem byteAt_of_memGet {s : State} {a : Nat} {b : Byte} (h : memGet s.mem a = some b) : byteAt s a = some b := by
  simp [byteAt, h]

@[simp] theorem coreBytes_length (s : State) (a n : Nat) : (coreBytes s a n).length = n := by simp [coreBytes]

theorem coreBytes_getElem? (s : State) (a n j : Nat) :
    (coreBytes s a n)[j]? = if j < n then some (coreByte s (a + j)) else none := by
  by_cases h : j < n <;> simp [coreBytes, h]

end Sys2Proof.Machine
end

