-- ==== Sys2Proof/Laws/Ops.lean ====
section
/-! SUPPORT. For each shared operation, what it can do: which bytes it writes and with what, and what a pass and a
string of passes keep. Statements about commands cite these instead of unfolding the operations. -/

namespace Sys2Proof.Machine

open Sys2Proof.Config

/-! ## Accepting a command -/

/-- A ready core runs the command. -/
theorem accept_of_ready {s : State} (h : s.fault = 0#4) (body : State → Result) : accept s body = body s := by
  simp [accept, h]

/-- A faulted core does not take it. -/
theorem accept_of_faulted {s : State} (h : s.fault ≠ 0#4) (body : State → Result) : accept s body = .next s := by
  simp [accept, h]

/-- The two ways an accepted command can come out. -/
theorem accept_cases {s t : State} {body : State → Result} (h : accept s body = .next t) :
    (s.fault ≠ 0#4 ∧ t = s) ∨ (s.fault = 0#4 ∧ body s = .next t) := by
  unfold accept at h
  split at h
  · exact .inr ⟨‹_›, h⟩
  · cases h; exact .inl ⟨‹_›, rfl⟩

/-! ## Port writes -/

/-- A write to the command port selects a register of the cursor controller (R32). -/
theorem portWrite_command (b : Byte) (s : State) : portWrite cursorCmdPort b s =
    { s with trace := s.trace ++ [.port cursorCmdPort b], crtcIndex := b } := by
  simp only [portWrite, controllerWrite, emit, if_true]

/-- A write to the data port under command 14 is the high byte of the cursor (R32). -/
theorem portWrite_high (b : Byte) (s : State) (h : s.crtcIndex = cursorHighCmd) : portWrite cursorDataPort b s =
    { s with trace := s.trace ++ [.port cursorDataPort b], cursorHigh := b } := by
  rw [portWrite, controllerWrite, if_neg (by decide), if_pos rfl, if_pos h]; rfl

/-- A write to the data port under command 15 is the low byte of the cursor (R32). -/
theorem portWrite_low (b : Byte) (s : State) (h : s.crtcIndex = cursorLowCmd) : portWrite cursorDataPort b s =
    { s with trace := s.trace ++ [.port cursorDataPort b], cursorLow := b } := by
  rw [portWrite, controllerWrite, if_neg (by decide), if_pos rfl, if_neg (by rw [h]; decide), if_pos h]; rfl

/-- `MoveCursor` as one update (R153, R32). -/
theorem cursorTo_eq (pos : BitVec 16) (s : State) : cursorTo pos s =
    { s with
      trace := s.trace ++ [.port cursorCmdPort cursorHighCmd, .port cursorDataPort (pos.extractLsb' 8 8),
        .port cursorCmdPort cursorLowCmd, .port cursorDataPort (pos.extractLsb' 0 8)],
      crtcIndex := cursorLowCmd, cursorHigh := pos.extractLsb' 8 8, cursorLow := pos.extractLsb' 0 8 } := by
  rw [cursorTo, portWrite_command cursorHighCmd s, portWrite_high (pos.extractLsb' 8 8) _ rfl, portWrite_command cursorLowCmd,
    portWrite_low _ _ rfl]
  simp

/-! ## Bytes written -/

theorem byteAt_mem {s t : State} (hc : t.cfg = s.cfg) (hm : t.mem = s.mem) (a : Nat) : byteAt t a = byteAt s a := by
  rw [byteAt_congr hc hm]

theorem coreByte_mem {s t : State} (hm : t.mem = s.mem) (a : Nat) : coreByte t a = coreByte s a := by
  simp only [coreByte, hm]

@[simp] theorem byteAt_emit (e : Event) (s : State) : byteAt (emit e s) = byteAt s := byteAt_congr rfl rfl

@[simp] theorem byteAt_cursorTo (pos : BitVec 16) (s : State) : byteAt (cursorTo pos s) = byteAt s :=
  byteAt_congr (by simp) (by simp)

@[simp] theorem byteAt_raise (c : Cause) (w : CommandWord) (s : State) : byteAt (raise c w s) = byteAt s :=
  byteAt_congr rfl rfl

@[simp] theorem byteAt_advance (s : State) : byteAt (advance s) = byteAt s := byteAt_congr (by simp) (by simp)

@[simp] theorem descriptorBytes_length (d : Descriptor) : (descriptorBytes d).length = 8 := rfl

@[simp] theorem blankRow_length (p : Params) : (blankRow p).length = 160 := by
  simp [blankRow, fbWidth]

/-- The bytes of a blank row: the clear character, then the clear attribute, for each cell. -/
theorem blankRow_getElem? (p : Params) (c : Nat) (h : c < 80) :
    (blankRow p)[2 * c]? = some p.clearChar ∧ (blankRow p)[2 * c + 1]? = some (attrByte p.clearFg p.clearBg) := by
  have key : ∀ (n c : Nat) (x y : Byte), c < n → ((List.replicate n [x, y]).flatten)[2 * c]? = some x ∧
      ((List.replicate n [x, y]).flatten)[2 * c + 1]? = some y := by
    intro n
    induction n with
    | zero => intro c x y h; omega
    | succ n ih =>
      intro c x y h
      cases c with
      | zero => simp [List.replicate_succ]
      | succ c => simpa [List.replicate_succ, Nat.mul_add] using ih c x y (by omega)
  exact key fbWidth c _ _ h

/-- ENCODE's entry: its eight bytes, every other byte as before. -/
theorem byteAt_encodeEntry (n : Nat) (d : Descriptor) (s : State) (x : Nat) :
    byteAt (encodeEntry n d s) x =
      if entryAddress s.cfg n ≤ x ∧ x < entryAddress s.cfg n + 8 then (descriptorBytes d)[x - entryAddress s.cfg n]?
      else byteAt s x := by
  rw [encodeEntry, byteAt_storeBytes]; rfl

theorem coreByte_encodeEntry (n : Nat) (d : Descriptor) (s : State) (x : Nat) :
    coreByte (encodeEntry n d s) x =
      if entryAddress s.cfg n ≤ x ∧ x < entryAddress s.cfg n + 8 then
        (descriptorBytes d)[x - entryAddress s.cfg n]?.getD (launchByte x)
      else coreByte s x := by
  rw [encodeEntry, coreByte_storeBytes]; rfl

/-- A write cell inside the framebuffer: its two bytes, every other byte as before; outside it, no byte. -/
theorem byteAt_putCell (i : Word32) (ch : Byte) (fg bg : BitVec 4) (s : State) (x : Nat) :
    byteAt (putCell i ch fg bg s) x =
      if i.toNat < s.cfg.fbSize.toNat ∧ fbBase + i.toNat ≤ x ∧ x < fbBase + i.toNat + 2 then
        [ch, attrByte fg bg][x - (fbBase + i.toNat)]?
      else byteAt s x := by
  unfold putCell
  by_cases h : s.cfg.fbSize.toNat ≤ i.toNat
  · simp [h, show ¬ i.toNat < s.cfg.fbSize.toNat by omega]
  · simp only [h, if_false, byteAt_storeBytes, show i.toNat < s.cfg.fbSize.toNat by omega, true_and]
    rfl

/-- An admitted framebuffer holds the grid (R28). -/
theorem admitted_gridFits {p : Params} (h : p.Admitted) : gridBytes ≤ p.fbSize.toNat := h.2.2.2.2.2.2.2.2

/-- A write cell at a cell of the grid is never discarded: it is the store of its two bytes (R163). -/
theorem putCell_cell {s : State} (ha : s.cfg.Admitted) {p : Nat} (hp : p < fbWidth * fbHeight) (ch : Byte)
    (fg bg : BitVec 4) : putCell (BitVec.ofNat 32 (cellBytes * p)) ch fg bg s =
      storeBytes s (fbBase + cellBytes * p) [ch, attrByte fg bg] := by
  have hg := admitted_gridFits ha
  simp only [gridBytes, fbWidth, fbHeight] at hg hp
  have e : (BitVec.ofNat 32 (cellBytes * p)).toNat = cellBytes * p := by
    rw [BitVec.toNat_ofNat, Nat.mod_eq_of_lt (by simp only [cellBytes]; omega)]
  rw [putCell, e, if_neg (by simp only [cellBytes]; omega)]

/-- A scroll: a byte of rows 0 to 23 takes the byte one row below it, every other byte stays (R155). -/
theorem byteAt_scrollUp {s : State} (ha : s.cfg.Admitted) (x : Nat) :
    byteAt (scrollUp s) x = if fbBase ≤ x ∧ x < fbBase + 3840 then byteAt s (x + 160) else byteAt s x := by
  simp only [scrollUp, byteAt_storeBytes, coreBytes_length, coreBytes_getElem?]
  by_cases h : fbBase ≤ x ∧ x < fbBase + 3840
  · have h' : fbBase ≤ x ∧ x < fbBase + (gridBytes - rowBytes) := by simpa [gridBytes, rowBytes] using h
    have hlt : x - fbBase < gridBytes - rowBytes := by simp only [fbBase, gridBytes, rowBytes] at h ⊢; omega
    have hg := admitted_gridFits ha
    have e : fbBase + rowBytes + (x - fbBase) = x + 160 := by
      simp only [rowBytes, fbBase] at h ⊢; omega
    have ho : s.cfg.Owned (x + 160) := by
      right; right; simp only [Params.InFramebuffer, fbBase, gridBytes] at h hg ⊢; omega
    rw [if_pos h', if_pos hlt, if_pos h, e, byteAt_of_owned ho]
  · have h' : ¬ (fbBase ≤ x ∧ x < fbBase + (gridBytes - rowBytes)) := by simpa [gridBytes, rowBytes] using h
    rw [if_neg h', if_neg h]

/-- A blank line: the row's 160 bytes, every other byte as before (R157). -/
theorem byteAt_blankLine (r : Nat) (s : State) (x : Nat) :
    byteAt (blankLine r s) x =
      if fbBase + 160 * r ≤ x ∧ x < fbBase + 160 * r + 160 then (blankRow s.cfg)[x - (fbBase + 160 * r)]?
      else byteAt s x := by
  rw [blankLine, byteAt_storeBytes, blankRow_length]

/-! ## Descriptors -/

/-- Reading eight bytes back gives the descriptor they were made from (R121, R123). -/
theorem descriptorOf_descriptorBytes (d : Descriptor) :
    descriptorOf (d.limit.extractLsb' 0 8) (d.limit.extractLsb' 8 8) (d.base.extractLsb' 0 8)
      (d.base.extractLsb' 8 8) (d.base.extractLsb' 16 8) d.access (d.flags ++ d.limit.extractLsb' 16 4)
      (d.base.extractLsb' 24 8) = d := by
  have nibbles : ∀ x y : BitVec 4, (x ++ y).extractLsb' 0 4 = y ∧ (x ++ y).extractLsb' 4 4 = x := by decide
  obtain ⟨base, limit, access, flags⟩ := d
  simp only [descriptorOf, Descriptor.mk.injEq, nibbles, and_true]
  constructor <;>
  · apply BitVec.eq_of_getLsbD_eq
    intro i hi
    simp only [BitVec.getLsbD_append, BitVec.getLsbD_extractLsb']
    interval_cases i <;> rfl

/-- `DecodeEntry` of the entry `EncodeEntry` just wrote is its descriptor (R125). -/
theorem decodeEntry_encodeEntry (n : Nat) (d : Descriptor) (s : State) :
    decodeEntry n (encodeEntry n d s) = d := by
  simp only [decodeEntry, coreByte_encodeEntry, encodeEntry_cfg]
  have key : ∀ j, j < 8 → entryAddress s.cfg n ≤ entryAddress s.cfg n + j ∧
      entryAddress s.cfg n + j < entryAddress s.cfg n + 8 := by intro j hj; omega
  have k0 := key 0 (by decide)
  rw [Nat.add_zero] at k0
  rw [if_pos k0, if_pos (key 1 (by decide)), if_pos (key 2 (by decide)), if_pos (key 3 (by decide)),
    if_pos (key 4 (by decide)), if_pos (key 5 (by decide)), if_pos (key 6 (by decide)), if_pos (key 7 (by decide))]
  simp only [Nat.add_sub_cancel_left, Nat.sub_self]
  exact descriptorOf_descriptorBytes d

/-- `DecodeEntry` depends on memory and the table's base alone. -/
theorem decodeEntry_congr {s t : State} (hc : t.cfg = s.cfg) (hm : t.mem = s.mem) (n : Nat) :
    decodeEntry n t = decodeEntry n s := by
  simp only [decodeEntry, coreByte, hc, hm]

/-! ## The host's buffer -/

/-- Reading `n` host bytes succeeds exactly when each has a value, and answers those values. -/
theorem hostBytes_eq_some {m : Memory} {a n : Nat} {bs : List Byte} :
    hostBytes m a n = some bs ↔ bs.length = n ∧ ∀ j < n, memGet m (a + j) = bs[j]? := by
  induction n generalizing a bs with
  | zero =>
    simp only [hostBytes, Option.some.injEq]
    exact ⟨fun h => by subst h; simp, fun h => (List.length_eq_zero_iff.mp h.1).symm⟩
  | succ n ih =>
    simp only [hostBytes]
    constructor
    · intro h
      cases hb : memGet m a with
      | none => simp [hb] at h
      | some b =>
        cases hr : hostBytes m (a + 1) n with
        | none => simp [hb, hr] at h
        | some cs =>
          simp only [hb, hr, Option.some.injEq] at h
          subst h
          obtain ⟨hl, hj⟩ := ih.mp hr
          refine ⟨by simp [hl], ?_⟩
          intro j hlt
          cases j with
          | zero => simpa using hb
          | succ j =>
            have := hj j (by omega)
            rw [show a + (j + 1) = a + 1 + j by omega]
            simpa using this
    · rintro ⟨hl, hj⟩
      cases bs with
      | nil => simp at hl
      | cons b cs =>
        have hb := hj 0 (by omega)
        simp only [Nat.add_zero, List.getElem?_cons_zero] at hb
        have hr : hostBytes m (a + 1) n = some cs := by
          rw [ih]
          refine ⟨by simpa using hl, fun j hlt => ?_⟩
          have := hj (j + 1) (by omega)
          rw [show a + 1 + j = a + (j + 1) by omega]
          simpa using this
        simp [hb, hr]

/-- A run of addresses meets no core-owned region exactly when none of its addresses is core-owned. -/
theorem meetsOwned_eq_false {p : Params} (hp : p.Admitted) {a n : Nat} (hn : 0 < n) :
    meetsOwned p a n = false ↔ ∀ x, a ≤ x → x < a + n → ¬ p.Owned x := by
  have one : ∀ b m : Nat, 0 < m → (Apart a n b m ↔ ∀ x, a ≤ x → x < a + n → ¬ (b ≤ x ∧ x < b + m)) := by
    intro b m hm
    constructor
    · intro h x h1 h2; unfold Apart at h; omega
    · intro h
      by_contra hc
      unfold Apart at hc
      have h1 := h a (by omega) (by omega)
      have h2 := h b
      omega
  simp only [meetsOwned, Bool.not_eq_false', Bool.and_eq_true, decide_eq_true_eq]
  rw [one _ gdtBytes (by decide), one _ ptrBytes (by decide), one _ p.fbSize.toNat (by have := admitted_gridFits hp; simp only [gridBytes] at this; omega)]
  unfold Params.Owned Params.InTable Params.InPointer Params.InFramebuffer
  constructor
  · rintro ⟨⟨h1, h2⟩, h3⟩ x ha hb
    have := h1 x ha hb; have := h2 x ha hb; have := h3 x ha hb
    tauto
  · intro h
    refine ⟨⟨?_, ?_⟩, ?_⟩ <;>
    · intro x ha hb hc
      exact h x ha hb (by tauto)

/-- The admission of a string of at least one byte (R159). -/
theorem admitBuffer_eq_some {s : State} (ha : s.cfg.Admitted) {buf len : Nat} {bs : List Byte} (h : 0 < len) :
    admitBuffer s buf len = some bs ↔
      buf + len ≤ addrSpace ∧ (∀ x, buf ≤ x → x < buf + len → ¬ s.cfg.Owned x) ∧
      bs.length = len ∧ ∀ j < len, byteAt s (buf + j) = bs[j]? := by
  have hbyte : ∀ x, ¬ s.cfg.Owned x → byteAt s x = memGet s.mem x := by
    intro x hx; simp [byteAt, unlistedByte, hx]
  unfold admitBuffer
  rw [if_neg (by omega : ¬ len = 0)]
  by_cases h1 : addrSpace ≤ buf + len - 1
  · rw [if_pos h1]
    exact ⟨fun h => by simp at h, fun h => absurd h.1 (by omega)⟩
  · rw [if_neg h1]
    by_cases h2 : meetsOwned s.cfg buf len = true
    · rw [if_pos h2]
      refine ⟨fun h => by simp at h, fun h' => ?_⟩
      have := (meetsOwned_eq_false ha h).mpr h'.2.1
      simp [this] at h2
    · rw [if_neg h2, hostBytes_eq_some]
      have ho := (meetsOwned_eq_false ha h).mp (by simpa using h2)
      constructor
      · rintro ⟨hl, hj⟩
        refine ⟨by omega, ho, hl, fun j hlt => ?_⟩
        rw [hbyte _ (ho _ (by omega) (by omega))]; exact hj j hlt
      · rintro ⟨-, -, hl, hj⟩
        refine ⟨hl, fun j hlt => ?_⟩
        rw [← hbyte _ (ho _ (by omega) (by omega))]; exact hj j hlt

/-! ## Passes -/

/-- What every pass keeps, a string of passes keeps. -/
theorem stringPasses_keeps {fg bg : BitVec 4} {P : State → Prop} (hb : ∀ s, P s → P (breakPass s))
    (hp : ∀ b s, isBreak b = false → P s → P (printPass fg bg b s)) (bs : List Byte) (s : State) (h : P s) :
    P (stringPasses fg bg bs s) := by
  induction bs, s using stringPasses.induct (fg := fg) (bg := bg) with
  | case1 s => exact h
  | case2 b s hbr => simpa [stringPasses, hbr] using hb s h
  | case3 b s hbr => simpa [stringPasses, hbr] using hp b s (by simpa using hbr) h
  | case4 b n rest s hbr hpair ih => simpa [stringPasses, hbr, hpair] using ih (hb s h)
  | case5 b n rest s hbr hpair ih => simpa [stringPasses, hbr, hpair] using ih (hb s h)
  | case6 b n rest s hbr ih => simpa [stringPasses, hbr] using ih (hp b s (by simpa using hbr) h)

/-- A string of passes changes the position, the framebuffer, the trace and the cursor controller, nothing else. -/
theorem stringPasses_frame (fg bg : BitVec 4) (bs : List Byte) (s : State) :
    (stringPasses fg bg bs s).cfg = s.cfg ∧ (stringPasses fg bg bs s).installed = s.installed ∧
    (stringPasses fg bg bs s).fault = s.fault ∧ (stringPasses fg bg bs s).faultLine = s.faultLine ∧
    (stringPasses fg bg bs s).resp = s.resp ∧ (stringPasses fg bg bs s).inputs = s.inputs ∧
    (stringPasses fg bg bs s).hostRead = s.hostRead := by
  refine stringPasses_keeps (P := fun t => t.cfg = s.cfg ∧ t.installed = s.installed ∧ t.fault = s.fault ∧
    t.faultLine = s.faultLine ∧ t.resp = s.resp ∧ t.inputs = s.inputs ∧ t.hostRead = s.hostRead) ?_ ?_ bs s
    ⟨rfl, rfl, rfl, rfl, rfl, rfl, rfl⟩
  · intro t ht; simpa using ht
  · intro b t _ ht; simpa using ht

/-- The position is on the grid (R29). -/
abbrev OnGrid (s : State) : Prop := s.row.toNat < fbHeight ∧ s.col.toNat < fbWidth

/-- A line-break pass ends on the grid (R167). -/
theorem breakPass_onGrid (s : State) : OnGrid (breakPass s) := by
  unfold OnGrid breakPass
  simp only [overflowCheck_row, overflowCheck_col, fbHeight, fbWidth]
  refine ⟨?_, by decide⟩
  split_ifs
  · decide
  · omega

/-- From a position on the grid a printable pass ends on the grid (R167). -/
theorem printPass_onGrid {s : State} (h : OnGrid s) (fg bg : BitVec 4) (b : Byte) : OnGrid (printPass fg bg b s) := by
  unfold OnGrid printPass at *
  simp only [overflowCheck_row, overflowCheck_col, advance_row, advance_col, cursorTo_row, cursorTo_col, putCell_row,
    putCell_col, fbHeight, fbWidth] at *
  constructor
  · split_ifs <;> first | decide | omega
  · split_ifs with hne
    · decide
    · have : (s.col + 1#32).toNat ≠ 80 := fun hh => hne (BitVec.eq_of_toNat_eq (by simpa using hh))
      simp only [BitVec.toNat_add, BitVec.toNat_ofNat] at *
      omega

/-- A string of passes keeps the position on the grid (R29). -/
theorem stringPasses_onGrid {s : State} (h : OnGrid s) (fg bg : BitVec 4) (bs : List Byte) :
    OnGrid (stringPasses fg bg bs s) := by
  refine stringPasses_keeps (P := OnGrid) ?_ ?_ bs s h
  · intro t _; exact breakPass_onGrid t
  · intro b t _ ht; exact printPass_onGrid ht fg bg b

/-- An admitted configuration, on the grid: what a pass starts from and ends in. -/
abbrev PassReady (s : State) : Prop := s.cfg.Admitted ∧ OnGrid s

/-- The linear position of a cell of the grid (R98). -/
theorem linearPos_lt {s : State} (h : OnGrid s) : linearPos s.row.toNat s.col.toNat < fbWidth * fbHeight := by
  obtain ⟨h1, h2⟩ := h
  simp only [linearPos, fbWidth, fbHeight] at *
  omega

/-- From a position on the grid a printable pass stores at its cell (R163). -/
theorem printPass_eq {s : State} (h : PassReady s) (fg bg : BitVec 4) (b : Byte) : printPass fg bg b s =
    overflowCheck (advance (cursorTo (BitVec.ofNat 16 (linearPos s.row.toNat s.col.toNat))
      (storeBytes s (fbBase + cellBytes * linearPos s.row.toNat s.col.toNat) [b, attrByte fg bg]))) := by
  simp only [printPass]
  rw [putCell_cell h.1 (linearPos_lt h.2)]

theorem breakPass_ready {s : State} (h : PassReady s) : PassReady (breakPass s) := ⟨by simpa using h.1, breakPass_onGrid s⟩

theorem printPass_ready {s : State} (h : PassReady s) (fg bg : BitVec 4) (b : Byte) : PassReady (printPass fg bg b s) :=
  ⟨by simpa using h.1, printPass_onGrid h.2 fg bg b⟩

/-- The overflow check writes framebuffer bytes only. -/
theorem byteAt_overflowCheck_of_outside {s : State} (ha : s.cfg.Admitted) {x : Nat} (h : ¬ s.cfg.InFramebuffer x) :
    byteAt (overflowCheck s) x = byteAt s x := by
  unfold overflowCheck
  split
  · rw [byteAt_blankLine, byteAt_scrollUp (by exact ha)]
    have hg := admitted_gridFits ha
    have h1 : ¬ (fbBase + 160 * (fbHeight - 1) ≤ x ∧ x < fbBase + 160 * (fbHeight - 1) + 160) := by
      simp only [Params.InFramebuffer, fbBase, gridBytes, fbHeight] at h hg ⊢; omega
    have h2 : ¬ (fbBase ≤ x ∧ x < fbBase + 3840) := by
      simp only [Params.InFramebuffer, fbBase, gridBytes] at h hg ⊢; omega
    rw [if_neg h1, if_neg h2]
    rfl
  · rfl

theorem byteAt_breakPass_of_outside {s : State} (ha : s.cfg.Admitted) {x : Nat} (h : ¬ s.cfg.InFramebuffer x) :
    byteAt (breakPass s) x = byteAt s x := by
  rw [breakPass, byteAt_overflowCheck_of_outside (by exact ha) (by exact h)]; rfl

theorem byteAt_printPass_of_outside {s : State} (hs : PassReady s) (fg bg : BitVec 4) (b : Byte) {x : Nat}
    (h : ¬ s.cfg.InFramebuffer x) : byteAt (printPass fg bg b s) x = byteAt s x := by
  rw [printPass_eq hs, byteAt_overflowCheck_of_outside (by simpa using hs.1) (by simpa using h), byteAt_advance,
    byteAt_cursorTo, byteAt_storeBytes, if_neg]
  have hg := admitted_gridFits hs.1
  have hp := linearPos_lt hs.2
  simp only [Params.InFramebuffer, fbBase, gridBytes, cellBytes, fbWidth, fbHeight, List.length_cons,
    List.length_nil] at *
  omega

/-- From a position on the grid a string of passes writes framebuffer bytes only. -/
theorem byteAt_stringPasses_of_outside {s : State} (hs : PassReady s) (fg bg : BitVec 4) (bs : List Byte) {x : Nat}
    (h : ¬ s.cfg.InFramebuffer x) : byteAt (stringPasses fg bg bs s) x = byteAt s x := by
  refine (stringPasses_keeps (P := fun t => t.cfg = s.cfg ∧ PassReady t ∧ byteAt t x = byteAt s x) ?_ ?_ bs s
    ⟨rfl, hs, rfl⟩).2.2
  · rintro t ⟨hc, hr, hb⟩
    exact ⟨by simpa using hc, breakPass_ready hr, by rw [byteAt_breakPass_of_outside hr.1 (hc ▸ h), hb]⟩
  · rintro b t - ⟨hc, hr, hb⟩
    exact ⟨by simpa using hc, printPass_ready hr fg bg b, by rw [byteAt_printPass_of_outside hr fg bg b (hc ▸ h), hb]⟩

/-- Passes keep memory canonical. -/
theorem overflowCheck_wf {s : State} (h : Memory.wf s.mem) : Memory.wf (overflowCheck s).mem := by
  unfold overflowCheck
  split
  · simp only [blankLine_mem, scrollUp_mem]
    refine memWrite_wf (memWrite_wf h ?_) ?_
    · simp [fbBase, rowBytes, gridBytes, addrSpace]
    · simp [fbBase, rowBytes, fbHeight, addrSpace]
  · exact h

/-- A write cell within its precondition (R151) keeps memory canonical. -/
theorem putCell_wf {s : State} (ha : s.cfg.Admitted) (h : Memory.wf s.mem) {i : Word32}
    (hi : i.toNat + 1 ≠ s.cfg.fbSize.toNat) (ch : Byte) (fg bg : BitVec 4) :
    Memory.wf (putCell i ch fg bg s).mem := by
  have hb := ha.2.2.1
  simp only [putCell_mem]
  split
  · exact h
  · refine memWrite_wf h ?_
    simp only [fbBase, addrSpace, List.length_cons, List.length_nil] at *
    omega

theorem breakPass_wf {s : State} (h : Memory.wf s.mem) : Memory.wf (breakPass s).mem := overflowCheck_wf h

theorem printPass_wf {s : State} (hs : PassReady s) (h : Memory.wf s.mem) (fg bg : BitVec 4) (b : Byte) :
    Memory.wf (printPass fg bg b s).mem := by
  rw [printPass_eq hs]
  refine overflowCheck_wf ?_
  rw [advance_mem, cursorTo_mem, storeBytes_mem]
  have hp := linearPos_lt hs.2
  refine memWrite_wf h ?_
  simp only [fbBase, addrSpace, cellBytes, fbWidth, fbHeight, List.length_cons, List.length_nil] at *
  omega

theorem stringPasses_wf {s : State} (hs : PassReady s) (h : Memory.wf s.mem) (fg bg : BitVec 4) (bs : List Byte) :
    Memory.wf (stringPasses fg bg bs s).mem := by
  refine (stringPasses_keeps (P := fun t => PassReady t ∧ Memory.wf t.mem) ?_ ?_ bs s ⟨hs, h⟩).2
  · rintro t ⟨hr, ht⟩; exact ⟨breakPass_ready hr, breakPass_wf ht⟩
  · rintro b t - ⟨hr, ht⟩; exact ⟨printPass_ready hr fg bg b, printPass_wf hr ht fg bg b⟩

end Sys2Proof.Machine
end

