-- ==== Sys2Proof/Laws/Exec.lean ====
section
/-! SUPPORT. What a command and a step can do, said once: a command is not taken, faults, or has its effect; and
where INSTALL's bytes go. Statements over all commands cite these instead of unfolding the meanings. -/

namespace Sys2Proof.Machine

open Sys2Proof.Config

/-- `t` is what command `i`, accepted and without a fault, makes of `s`. -/
def Effect (i : Instr) (s t : State) : Prop :=
  match i with
  | .encode idx base limit access flags => idx.toNat < gdtEntries ∧ s.installed = false ∧
      t = encodeEntry idx.toNat { base := base, limit := limit, access := access, flags := flags } s
  | .install => s.installed = false ∧ t = requestLoad (writeTables s)
  | .writeCell off ch fg bg => off.toNat + 1 ≠ s.cfg.fbSize.toNat ∧ t = putCell off ch fg bg s
  | .moveCursor pos => t = cursorTo pos s
  | .writeString buf len fg bg => ∃ bs, admitBuffer s buf.toNat len.toNat = some bs ∧ t = stringPasses fg bg bs s
  | .scroll => t = scrollUp s
  | .clearLine row => row.toNat < fbHeight ∧ t = blankLine row.toNat s
  | .decode idx => idx.toNat < gdtEntries ∧ t = { s with resp := some (decodeEntry idx.toNat s) }

/-- The three ways a command comes out: not taken by a faulted core, a fault under its own word, or its effect. -/
theorem exec_cases {i : Instr} {s t : State} (h : exec i s = .next t) :
    (s.fault ≠ 0#4 ∧ t = s) ∨ (s.fault = 0#4 ∧ ((∃ c, t = raise c (encode i) s) ∨ Effect i s t)) := by
  cases i with
  | encode idx base limit access flags =>
    rw [exec, execEncode] at h
    rcases accept_cases h with ⟨h1, h2⟩ | ⟨h1, h2⟩
    · exact .inl ⟨h1, h2⟩
    · refine .inr ⟨h1, ?_⟩
      split at h2
      · cases h2; exact .inl ⟨_, rfl⟩
      · split at h2
        · cases h2; exact .inl ⟨_, rfl⟩
        · cases h2; exact .inr ⟨by omega, by simpa using ‹¬ s.installed = true›, rfl⟩
  | install =>
    rw [exec, execInstall] at h
    rcases accept_cases h with ⟨h1, h2⟩ | ⟨h1, h2⟩
    · exact .inl ⟨h1, h2⟩
    · refine .inr ⟨h1, ?_⟩
      split at h2
      · cases h2; exact .inl ⟨_, rfl⟩
      · cases h2; exact .inr ⟨by simpa using ‹¬ s.installed = true›, rfl⟩
  | writeCell off ch fg bg =>
    rw [exec, execWriteCell] at h
    rcases accept_cases h with ⟨h1, h2⟩ | ⟨h1, h2⟩
    · exact .inl ⟨h1, h2⟩
    · refine .inr ⟨h1, ?_⟩
      split at h2
      · cases h2; exact .inl ⟨_, rfl⟩
      · cases h2; exact .inr ⟨‹_›, rfl⟩
  | moveCursor pos =>
    rw [exec, execMoveCursor] at h
    rcases accept_cases h with ⟨h1, h2⟩ | ⟨h1, h2⟩
    · exact .inl ⟨h1, h2⟩
    · cases h2; exact .inr ⟨h1, .inr rfl⟩
  | writeString buf len fg bg =>
    rw [exec, execWriteString] at h
    rcases accept_cases h with ⟨h1, h2⟩ | ⟨h1, h2⟩
    · exact .inl ⟨h1, h2⟩
    · refine .inr ⟨h1, ?_⟩
      split at h2
      · cases h2; exact .inl ⟨_, rfl⟩
      · cases h2; exact .inr ⟨_, ‹_›, rfl⟩
  | scroll =>
    rw [exec, execScroll] at h
    rcases accept_cases h with ⟨h1, h2⟩ | ⟨h1, h2⟩
    · exact .inl ⟨h1, h2⟩
    · cases h2; exact .inr ⟨h1, .inr rfl⟩
  | clearLine row =>
    rw [exec, execClearLine] at h
    rcases accept_cases h with ⟨h1, h2⟩ | ⟨h1, h2⟩
    · exact .inl ⟨h1, h2⟩
    · refine .inr ⟨h1, ?_⟩
      split at h2
      · cases h2; exact .inl ⟨_, rfl⟩
      · cases h2; exact .inr ⟨by omega, rfl⟩
  | decode idx =>
    rw [exec, execDecode] at h
    rcases accept_cases h with ⟨h1, h2⟩ | ⟨h1, h2⟩
    · exact .inl ⟨h1, h2⟩
    · refine .inr ⟨h1, ?_⟩
      split at h2
      · cases h2; exact .inl ⟨_, rfl⟩
      · cases h2; exact .inr ⟨by omega, rfl⟩

/-- A ready core whose command has an effect goes on to it. -/
theorem exec_of_effect {i : Instr} {s t : State} (hr : s.fault = 0#4) (h : Effect i s t) : exec i s = .next t := by
  cases i with
  | encode idx base limit access flags =>
    obtain ⟨h1, h2, rfl⟩ := h
    rw [exec, execEncode, accept_of_ready hr, if_neg (by omega), h2]; rfl
  | install =>
    obtain ⟨h1, rfl⟩ := h
    rw [exec, execInstall, accept_of_ready hr, h1]; rfl
  | writeCell off ch fg bg =>
    obtain ⟨h1, rfl⟩ := h
    rw [exec, execWriteCell, accept_of_ready hr, if_neg h1]
  | moveCursor pos => subst h; rw [exec, execMoveCursor, accept_of_ready hr]
  | writeString buf len fg bg =>
    obtain ⟨bs, h1, rfl⟩ := h
    rw [exec, execWriteString, accept_of_ready hr, h1]
  | scroll => subst h; rw [exec, execScroll, accept_of_ready hr]
  | clearLine row =>
    obtain ⟨h1, rfl⟩ := h
    rw [exec, execClearLine, accept_of_ready hr, if_neg (by omega)]
  | decode idx =>
    obtain ⟨h1, rfl⟩ := h
    rw [exec, execDecode, accept_of_ready hr, if_neg (by omega)]

/-- An effect changes neither the parameters, nor `FAULT` and its line, nor what the environment does and has read. -/
theorem effect_frame {i : Instr} {s t : State} (h : Effect i s t) :
    t.cfg = s.cfg ∧ t.fault = s.fault ∧ t.faultLine = s.faultLine ∧ t.inputs = s.inputs ∧
    t.hostRead = s.hostRead := by
  cases i with
  | encode idx base limit access flags => obtain ⟨-, -, rfl⟩ := h; simp
  | install => obtain ⟨-, rfl⟩ := h; simp [requestLoad, writeTables]
  | writeCell off ch fg bg => obtain ⟨-, rfl⟩ := h; simp
  | moveCursor pos => subst h; simp
  | writeString buf len fg bg =>
    obtain ⟨bs, -, rfl⟩ := h
    obtain ⟨h1, -, h3, h4, -, h6, h7⟩ := stringPasses_frame fg bg bs s
    exact ⟨h1, h3, h4, h6, h7⟩
  | scroll => subst h; simp
  | clearLine row => obtain ⟨-, rfl⟩ := h; simp
  | decode idx => obtain ⟨-, rfl⟩ := h; simp

/-- What a step can be: the core waits, a command runs, a word's fault is taken (or not, by a faulted core), or the
environment moves. -/
theorem step_cases {s t : State} (h : step s = .next t) : s.cfg.Admitted ∧
    ((s.inputs = [] ∧ t = s) ∨
     (∃ bytes rest i, s.inputs = .command bytes :: rest ∧ decodeBytes bytes = .ok i ∧
        exec i { s with inputs := rest } = .next t) ∨
     (∃ bytes rest r, s.inputs = .command bytes :: rest ∧ decodeBytes bytes = .error r ∧
        takeReject r (BitVec.ofNat 128 (leNat bytes)) { s with inputs := rest } = .next t) ∨
     (∃ a b rest, s.inputs = .hostByte a b :: rest ∧ ¬ s.cfg.Owned a.toNat ∧
        t = storeBytes { s with inputs := rest } a.toNat [b]) ∨
     (∃ e rest, s.inputs = .accessed e :: rest ∧ s.installed = true ∧
        t = storeBytes { s with inputs := rest } (entryAddress s.cfg (LoadedEntry.index e) + 5)
          [coreByte s (entryAddress s.cfg (LoadedEntry.index e) + 5) ||| 1#8]) ∨
     (∃ rest, s.inputs = .readResp :: rest ∧ t = { s with inputs := rest, hostRead := readResp s }) ∨
     (∃ a rest, s.inputs = .readMemory a :: rest ∧
        t = { s with inputs := rest, hostRead := .memory (byteAt s a.toNat) })) := by
  unfold step at h
  split at h
  · refine ⟨‹_›, ?_⟩
    split at h
    · cases h; exact .inl ⟨‹_›, rfl⟩
    · unfold stepCommand at h
      split at h
      · exact .inr (.inl ⟨_, _, _, ‹_›, ‹_›, h⟩)
      · exact .inr (.inr (.inl ⟨_, _, _, ‹_›, ‹_›, h⟩))
    · unfold hostPlace at h
      split at h
      · cases h
      · cases h; exact .inr (.inr (.inr (.inl ⟨_, _, _, ‹_›, ‹_›, rfl⟩)))
    · unfold processorAccess at h
      split at h
      · cases h; exact .inr (.inr (.inr (.inr (.inl ⟨_, _, ‹_›, ‹_›, rfl⟩))))
      · cases h
    · cases h; exact .inr (.inr (.inr (.inr (.inr (.inl ⟨_, ‹_›, rfl⟩)))))
    · cases h; exact .inr (.inr (.inr (.inr (.inr (.inr ⟨_, _, ‹_›, rfl⟩)))))
  · cases h

/-- An undecodable word of a transfer takes its fault, or is not taken by a faulted core. -/
theorem takeReject_cases {r : Reject} {w : CommandWord} {s t : State} (h : takeReject r w s = .next t) :
    t = s ∨ (s.fault = 0#4 ∧ ∃ c, t = raise c w s) := by
  unfold takeReject at h
  split at h
  · rcases accept_cases h with ⟨-, h⟩ | ⟨h1, h⟩
    · exact .inl h
    · cases h; exact .inr ⟨h1, _, rfl⟩
  · cases h

/-! ## The console's bytes -/

/-- The machine's test of a line-break byte is the list of R161. -/
theorem isBreak_iff (b : Byte) : isBreak b = true ↔ Breaks b := by
  simp [isBreak, or_assoc]

/-- The machine's test of a pair is the list of R162. -/
theorem isPair_iff (b n : Byte) : isPair b n = true ↔ Pairs b n := by
  simp [isPair]

/-! ## INSTALL's bytes -/

/-- The frame of INSTALL's writes: memory alone. -/
theorem writeTables_frame (s : State) : writeTables s = { s with mem := (writeTables s).mem } := by
  simp only [writeTables, encodeEntry, storeBytes]

/-- The five entries are one run of forty bytes, written over a pointer record that does not meet it. -/
theorem byteAt_writeTables {s : State} (h : s.cfg.Admitted) (x : Nat) :
    byteAt (writeTables s) x =
      if s.cfg.InTable x then (installedTable s.cfg)[x - s.cfg.tableBase.toNat]?
      else if s.cfg.InPointer x then (pointerRecord s.cfg)[x - s.cfg.ptrBase.toNat]?
      else byteAt s x := by
  have hl : (pointerRecord s.cfg).length = 6 := rfl
  have pick : ∀ (d : Descriptor) (j k : Nat), k = j → (descriptorBytes d)[k]? = (descriptorBytes d)[j]? := by
    intro d j k e; rw [e]
  simp only [writeTables, byteAt_encodeEntry, encodeEntry_cfg, storeBytes_cfg, byteAt_storeBytes, hl, entryAddress,
    descBytes]
  obtain ⟨-, -, -, hap, -⟩ := h
  simp only [Apart, gdtBytes, ptrBytes] at hap
  simp only [Params.InTable, Params.InPointer, gdtBytes, ptrBytes]
  by_cases ht : s.cfg.tableBase.toNat ≤ x ∧ x < s.cfg.tableBase.toNat + 40
  · rw [if_pos ht]
    obtain ⟨j, hj⟩ : ∃ j, x = s.cfg.tableBase.toNat + j := ⟨x - s.cfg.tableBase.toNat, by omega⟩
    subst hj
    rw [Nat.add_sub_cancel_left]
    unfold installedTable
    by_cases h4 : 32 ≤ j
    · rw [if_pos (by omega), List.getElem?_append_right h4]; exact pick _ _ _ (by simp; omega)
    · rw [if_neg (by omega), List.getElem?_append_left (by simp; omega)]
      by_cases h3 : 24 ≤ j
      · rw [if_pos (by omega), List.getElem?_append_right h3]; exact pick _ _ _ (by simp; omega)
      · rw [if_neg (by omega), List.getElem?_append_left (by simp; omega)]
        by_cases h2 : 16 ≤ j
        · rw [if_pos (by omega), List.getElem?_append_right h2]; exact pick _ _ _ (by simp; omega)
        · rw [if_neg (by omega), List.getElem?_append_left (by simp; omega)]
          by_cases h1 : 8 ≤ j
          · rw [if_pos (by omega), List.getElem?_append_right h1]; exact pick _ _ _ (by simp; omega)
          · rw [if_neg (by omega), if_pos (by omega), List.getElem?_append_left (by simp; omega)]
            exact pick _ _ _ (by omega)
  · rw [if_neg ht, if_neg (by omega), if_neg (by omega), if_neg (by omega), if_neg (by omega), if_neg (by omega)]

end Sys2Proof.Machine
end

