-- ==== Sys2Proof/Tests/Slice0.lean ====
section
/-! SUPPORT. Checks of the model against 95_test_vectors.md and spec/opcode_table.json, a smoke test of
well-formedness, and for each obligation with hypotheses a concrete case that meets them (`witness_<Name>`). Every
expected value is the spec's. -/

namespace Sys2Proof.Tests

open Sys2Proof Sys2Proof.Config Sys2Proof.Machine

/-! ## Small states -/

/-- The parameters of 95_test_vectors.md's launch. -/
abbrev vectors : Params := State.reset.cfg

/-- The launch of 95_test_vectors.md with `bs` placed at `a`. -/
def placedAt (a : Nat) (bs : List Byte) : State := { State.reset with mem := cellsAt a bs }

/-- The launch of 95_test_vectors.md with `bs` at 0x00200000 and the position at `(row, col)`. -/
def textAt (row col : Word32) (bs : List Byte) : State := { placedAt 0x00200000 bs with row := row, col := col }

/-- After INSTALL. -/
def installedState : State := requestLoad (writeTables State.reset)

/-- A core stuck in `BAD_INDEX` by ENCODE 5 (vector T6). -/
def faultedState : State := { State.reset with fault := 3#4, faultLine := some 0x51#128 }

/-- A launch whose table lies in the framebuffer, which R7 does not admit. -/
def overlapping : State := { State.reset with cfg := { tableBase := 0xB8000#32, ptrBase := 0x00101040#32 } }

/-- The launch of 95_test_vectors.md with `FB_SIZE` 4002, two bytes more than the grid. -/
def widerFb : State := { State.reset with cfg := { State.reset.cfg with fbSize := 4002#32 } }

/-- What a next state holds; false of a fault or a refusal. -/
def holds (r : Result) (p : State → Bool) : Bool :=
  match r with
  | .next t => p t
  | _       => false

/-- The word presented as the next move, and the rest of the state as at reset. -/
def presented (w : CommandWord) : State := { State.reset with inputs := [.command (transfer w)] }

/-! ## Well-formedness: an ill-formed command for each check, and the last well-formed one -/

theorem test_wellFormed_encode : (Instr.encode 5 0 0 0 0).wellFormed vectors = false ∧
    (Instr.encode 4 0xFFFFFFFF 0xFFFFF 0xFF 0xF).wellFormed vectors = true := by decide

theorem test_wellFormed_decode : (Instr.decode 7).wellFormed vectors = false ∧
    (Instr.decode 4).wellFormed vectors = true := by decide

theorem test_wellFormed_writeCell : (Instr.writeCell 3999 0x41 1 2).wellFormed vectors = false ∧
    (Instr.writeCell 3998 0x41 1 2).wellFormed vectors = true ∧
    (Instr.writeCell 4000 0x41 1 2).wellFormed vectors = true ∧
    (Instr.writeCell 4001 0x41 1 2).wellFormed widerFb.cfg = false := by decide

theorem test_wellFormed_clearLine : (Instr.clearLine 25).wellFormed vectors = false ∧
    (Instr.clearLine 24).wellFormed vectors = true := by decide

theorem test_wellFormed_writeString : (Instr.writeString 0xFFFFFFFF 2 7 0).wellFormed vectors = false ∧
    (Instr.writeString 0xFFFFFFFF 1 7 0).wellFormed vectors = true := by decide

theorem test_wellFormed_others : Instr.install.wellFormed vectors = true ∧ Instr.scroll.wellFormed vectors = true ∧
    (Instr.moveCursor 0xFFFF).wellFormed vectors = true := by decide

/-! ## Decoding: words of 95_test_vectors.md, and the rows of spec/opcode_table.json -/

/-- T3: OP 1, IDX 4, ACC 0x5A, FLG 7, LIM 0xABCDE, BASE 0x12345678. -/
theorem test_decode_word_encode : decodeTableWord 128 0x0000000012345678000ABCDE00075A41 =
    some (.encode 4 0x12345678 0xABCDE 0x5A 7) := by decide

/-- IN1: OP 2, every other bit 0. -/
theorem test_decode_word_install : decodeTableWord 128 0x00000000000000000000000000000002 = some .install := by decide

/-- W2: OP 3, OFF 3998, CH 'Z', FG 15, BG 1. -/
theorem test_decode_word_writeCell : decodeTableWord 128 0x000000000000000000000F9E005AF103 =
    some (.writeCell 3998 0x5A 15 1) := by decide

/-- MC5: OP 4, POS 0x1234. -/
theorem test_decode_word_moveCursor : decodeTableWord 128 0x00000000000000000000123400000004 =
    some (.moveCursor 0x1234) := by decide

/-- P2's second line: OP 5, BUF 0x00200010, LEN 2, FG 14, BG 1. -/
theorem test_decode_word_writeString : decodeTableWord 128 0x0000000000200010000000020000E105 =
    some (.writeString 0x00200010 2 14 1) := by decide

/-- SC1: OP 6, every other bit 0. -/
theorem test_decode_word_scroll : decodeTableWord 128 0x00000000000000000000000000000006 = some .scroll := by decide

/-- CL2: OP 7, ROW 24. -/
theorem test_decode_word_clearLine : decodeTableWord 128 0x00000000000000000000001800000007 =
    some (.clearLine 24) := by decide

/-- T9: OP 8, IDX 4. -/
theorem test_decode_word_decode : decodeTableWord 128 0x00000000000000000000000000000048 = some (.decode 4) := by
  decide

/-- E1 to E7: the opcode is checked first, then the reserved bits. -/
theorem test_decode_rejects :
    decodeWord 0x00000000000000000000000000000000#128 = .error .illegalCommand ∧
    decodeWord 0x00000000000000000000000000000009#128 = .error .illegalCommand ∧
    decodeWord 0x8000000000000000000000000000000F#128 = .error .illegalCommand ∧
    decodeWord 0x00000000000000000000000000000012#128 = .error .reservedBits ∧
    decodeWord 0x000000000000000000000000000000D1#128 = .error .reservedBits ∧
    decodeWord 0x00000000000000000000000000009A18#128 = .error .reservedBits ∧
    decodeWord 0x00000000000000000000000001000003#128 = .error .reservedBits := by decide

/-- A transfer is sixteen bytes, no more and no fewer (R80). -/
theorem test_decode_transfer_length : decodeBytes (leBytes 15 2) = .error .notOneWord ∧
    decodeBytes (leBytes 17 2) = .error .notOneWord ∧ decodeBytes (leBytes 16 2) = .ok .install := by decide

/-- The encoder gives the words of T3, P2, W2, MC5 and CL2. -/
theorem test_encode_words :
    encode (.encode 4 0x12345678 0xABCDE 0x5A 7) = 0x0000000012345678000ABCDE00075A41#128 ∧
    encode (.writeString 0x00200000 3 7 0) = 0x00000000002000000000000300007005#128 ∧
    encode (.writeCell 3998 0x5A 15 1) = 0x000000000000000000000F9E005AF103#128 ∧
    encode (.moveCursor 0x1234) = 0x00000000000000000000123400000004#128 ∧
    encode (.clearLine 24) = 0x00000000000000000000001800000007#128 := by decide

/-- The `match` of each row of spec/opcode_table.json decodes, and its `mask` is OP and the reserved bits (R88). -/
theorem test_opcode_table_rows : ∀ k < 9, 1 ≤ k →
    (tableRow k).any (fun row => (operands row.1).any (fun i => row.2 == (reservedMask i ||| 0xF#128))) = true := by
  decide

/-- R101, R102: a line with hex operands, a character operand and a comment, and a pseudo-command. -/
theorem test_assembler :
    (assembleLine "ENCODE 4, 0x12345678, 0xABCDE, 0x5A, 0x7".toList).map (fun is => is.map encode) =
      some [0x0000000012345678000ABCDE00075A41#128] ∧
    assembleLine "PUT_CELL 5, 1, 'b', 7, 0 ; cell (5,1)".toList = some [.writeCell 802 0x62 7 0] := by decide

/-! ## Reset -/

theorem test_reset : State.launch Launch.ofVectors = some State.reset ∧ State.reset.row = 5#32 ∧
    State.reset.col = 0#32 ∧ State.reset.installed = false ∧ State.reset.fault = 0#4 ∧ State.reset.faultLine = none ∧
    State.reset.resp = none ∧ State.reset.hostRead = .notYet ∧
    State.reset.trace = [] ∧ Memory.wf State.reset.mem := by decide

/-- The word presented by `withFetchWord` is the next step's command (IN1). -/
theorem test_withFetchWord : holds (step (State.reset.withFetchWord 128 0x2)) (fun t =>
    t.installed && t.inputs == [] && t.fault == 0#4) = true := by decide

/-- A read of `RESP` before any DECODE is the reader's fault; the core goes on (R25). -/
theorem test_readResp_not_valid : holds (step { State.reset with inputs := [.readResp] }) (fun t =>
    t == { State.reset with hostRead := .readerFault }) = true := by decide

/-- A read of `RESP` after a DECODE gives its record (R25, R213). -/
theorem test_readResp_valid : holds (step { State.reset with resp := some nullDescriptor, inputs := [.readResp] })
    (fun t => t.hostRead == .record nullDescriptor && t.resp == some nullDescriptor) = true := by decide

/-- A read of a byte of `TBL` gives it, and no byte is given where the host placed none (R213, R31). -/
theorem test_readMemory :
    holds (step { installedState with inputs := [.readMemory 0x0010100D#32] }) (fun t =>
      t == { installedState with hostRead := .memory (some 0x9A#8) }) = true ∧
    holds (step { State.reset with inputs := [.readMemory 0x00200000#32] }) (fun t =>
      t == { State.reset with hostRead := .memory none }) = true := by decide

/-! ## One command each -/

/-- T3. -/
theorem test_encode_fields : holds (exec (.encode 4 0x12345678 0xABCDE 0x5A 7) State.reset) (fun t =>
    coreBytes t 0x00101020 8 == [0xDE#8, 0xBC#8, 0x78#8, 0x56#8, 0x34#8, 0x5A#8, 0x7A#8, 0x12#8] && t.fault == 0#4) =
    true := by decide

/-- T8: the index is checked before the lock. -/
theorem test_encode_index_before_lock : holds (exec (.encode 5 0 0 0 0) installedState) (fun t =>
    t.fault == 3#4 && t.faultLine == some 0x51#128) = true := by decide

/-- T9's DECODE, of the bytes T3 wrote. -/
theorem test_decode_fields : holds (exec (.decode 4)
    (placedAt 0x00101020 [0xDE#8, 0xBC#8, 0x78#8, 0x56#8, 0x34#8, 0x5A#8, 0x7A#8, 0x12#8])) (fun t =>
    t.resp == some { base := 0x12345678#32, limit := 0xABCDE#20, access := 0x5A#8, flags := 7#4 }) = true := by decide

/-- T11. -/
theorem test_decode_index : holds (exec (.decode 7) State.reset) (fun t => t.fault == 3#4 && t.resp == none) =
    true := by decide

/-- IN1. -/
theorem test_install_table : holds (exec .install State.reset) (fun t =>
    coreBytes t 0x00101000 40 ==
      [0x00#8, 0x00#8, 0x00#8, 0x00#8, 0x00#8, 0x00#8, 0x00#8, 0x00#8,
       0xFF#8, 0xFF#8, 0x00#8, 0x00#8, 0x00#8, 0x9A#8, 0xCF#8, 0x00#8,
       0xFF#8, 0xFF#8, 0x00#8, 0x00#8, 0x00#8, 0x92#8, 0xCF#8, 0x00#8,
       0xFF#8, 0xFF#8, 0x00#8, 0x00#8, 0x00#8, 0xFA#8, 0xCF#8, 0x00#8,
       0xFF#8, 0xFF#8, 0x00#8, 0x00#8, 0x00#8, 0xF2#8, 0xCF#8, 0x00#8] &&
    coreBytes t 0x00101040 6 == [0x27#8, 0x00#8, 0x00#8, 0x10#8, 0x10#8, 0x00#8] && t.installed &&
    t.trace == [.tableLoad 0x0027#16 0x00101000#32]) = true := by decide

/-- IN3. -/
theorem test_install_twice : holds (exec .install installedState) (fun t =>
    t.fault == 5#4 && t.trace == installedState.trace) = true := by decide

/-- W6: an odd offset straddles two cells. -/
theorem test_writeCell_odd : holds (exec (.writeCell 1 0x41 1 2) State.reset) (fun t =>
    byteAt t 0xB8001 == some 0x41#8 && byteAt t 0xB8002 == some 0x12#8) = true := by decide

/-- W4, and R152 at another `FB_SIZE` (U25): offset 4000 is stored, 4001 faults, 4002 is discarded. -/
theorem test_writeCell_bounds :
    holds (exec (.writeCell 4000 0x41 1 2) State.reset) (fun t =>
      t.mem == [] && t.trace == [.cellDiscard 4000#32] && t.fault == 0#4) = true ∧
    holds (exec (.writeCell 4000 0x41 1 2) widerFb) (fun t => coreBytes t 0xB8FA0 2 == [0x41#8, 0x12#8]) = true ∧
    holds (exec (.writeCell 4001 0x41 1 2) widerFb) (fun t => t.fault == 6#4 && t.mem == []) = true ∧
    holds (exec (.writeCell 4002 0x41 1 2) widerFb) (fun t => t.trace == [.cellDiscard 4002#32]) = true := by decide

/-- MC5. -/
theorem test_moveCursor : holds (exec (.moveCursor 0x1234) State.reset) (fun t =>
    t.trace == [.port 0x3D4#16 0x0E#8, .port 0x3D5#16 0x12#8, .port 0x3D4#16 0x0F#8, .port 0x3D5#16 0x34#8] &&
    t.cursorHigh == 0x12#8 && t.cursorLow == 0x34#8) = true := by decide

/-- SC1. -/
theorem test_scroll_cell : ∃ t, exec .scroll (placedAt 0xB80A0 [0x41#8, 0x12#8]) = .next t ∧
    byteAt t 0xB8000 = some 0x41#8 ∧ byteAt t 0xB8001 = some 0x12#8 := by
  refine ⟨_, exec_of_effect rfl rfl, ?_, ?_⟩ <;> rw [byteAt_scrollUp (by decide)] <;> decide

set_option maxRecDepth 4000 in
/-- CL2, its first and last cell. -/
theorem test_clearLine_last_row : holds (exec (.clearLine 24) State.reset) (fun t =>
    byteAt t 0xB8F00 == some 0x20#8 && byteAt t 0xB8F01 == some 0xF0#8 && byteAt t 0xB8F9F == some 0xF0#8 &&
    t.mem.length == 160) = true := by decide

/-- CL3. -/
theorem test_clearLine_range : holds (exec (.clearLine 25) State.reset) (fun t => t.fault == 7#4 && t.mem == []) =
    true := by decide

/-- WS1. -/
theorem test_writeString_ab : holds (exec (.writeString 0x00200000 3 7 0) (textAt 5 0 [0x61#8, 0x62#8, 0x0A#8]))
    (fun t => t.row == 6#32 && t.col == 0#32 && byteAt t 0xB8320 == some 0x61#8 && byteAt t 0xB8321 == some 0x70#8 &&
      byteAt t 0xB8322 == some 0x62#8 && t.trace.length == 8 && t.cursorLow == 0x91#8) = true := by decide

/-- WS7: the pair first, then the single break. -/
theorem test_writeString_greedy : holds (exec (.writeString 0x00200000 3 7 0) (textAt 5 0 [0x0A#8, 0x0D#8, 0x0A#8]))
    (fun t => t.row == 7#32 && t.col == 0#32 && t.trace == []) = true := by decide

/-! ## Cases that meet the hypotheses of the obligations -/

/-- Bytes above the core-owned regions of the vectors' launch are placed. -/
theorem placed_of_cells {s : State} {a : Word32} {bs : List Byte} (hc : s.cfg = State.reset.cfg)
    (hm : s.mem = cellsAt a.toNat bs) (ha : 0x00200000 ≤ a.toNat) (hb : a.toNat + bs.length ≤ 2 ^ 32) :
    Placed s a bs := by
  refine ⟨?_, hb, ?_⟩
  · intro j hj
    have : memGet s.mem (a.toNat + j) = some bs[j] := by simp [hm, memGet_cellsAt, hj]
    rw [byteAt_of_memGet this, List.getElem?_eq_getElem hj]
  · intro x h1 _
    have ht : State.reset.cfg.tableBase.toNat = 0x00101000 := rfl
    have hp : State.reset.cfg.ptrBase.toNat = 0x00101040 := rfl
    rw [hc]
    have hf : State.reset.cfg.fbSize.toNat = 4000 := rfl
    simp only [Params.Owned, Params.InTable, Params.InPointer, Params.InFramebuffer, ht, hp, hf, gdtBytes, ptrBytes, fbBase]
    omega

/-- The parameters of `textAt` are those of the vectors' launch, which is admitted. -/
theorem admitted_textAt (row col : Word32) (bs : List Byte) : (textAt row col bs).cfg.Admitted := by
  change State.reset.cfg.Admitted; decide

/-- The text of `textAt` is placed. -/
theorem placed_textAt (row col : Word32) (bs : List Byte) (h : bs.length ≤ 100) :
    Placed (textAt row col bs) 0x00200000#32 bs :=
  placed_of_cells rfl rfl (by decide) (by simp; omega)

/-- A placed buffer meets none of the three conditions of `BUFFER_RANGE`. -/
theorem in_range_of_placed {s : State} {buf len : Word32} {bs : List Byte} (hl : bs.length = len.toNat)
    (h : Placed s buf bs) : ¬ (0 < len.toNat ∧ (0xFFFFFFFF < buf.toNat + len.toNat - 1 ∨
        (∃ a, buf.toNat ≤ a ∧ a < buf.toNat + len.toNat ∧ s.cfg.Owned a) ∨
        (∃ a, buf.toNat ≤ a ∧ a < buf.toNat + len.toNat ∧ byteAt s a = none))) := by
  obtain ⟨h1, h2, h3⟩ := h
  rintro ⟨hp, hr | ⟨a, ha, hb, ho⟩ | ⟨a, ha, hb, hn⟩⟩
  · omega
  · exact h3 a ha (by omega) ho
  · have := h1 (a - buf.toNat) (by omega)
    rw [show buf.toNat + (a - buf.toNat) = a by omega, hn, List.getElem?_eq_getElem (by omega)] at this
    cases this

theorem witness_EncodeOfDecodeIsTheWord :
    decodeWord 0x00000000FFFFFFFF000FFFFF000FFF11#128 = .ok (.encode 1 0xFFFFFFFF 0xFFFFF 0xFF 0xF) ∧
    decodeWord 0x2#128 = .ok .install := by decide

theorem witness_OpcodeTableDecidesDecoding :
    tableRow 1 = some (0x00000000000000000000000000000001#128, 0xFFFFFFFF00000000FFF00000FFF0008F#128) ∧
    tableRow 8 = some (0x00000000000000000000000000000008#128, 0xFFFFFFFFFFFFFFFFFFFFFFFFFFFFFF8F#128) ∧
    tableRow 0 = none ∧ tableRow 9 = none := by decide

theorem witness_DecodingOrderIsOpcodeThenReserved :
    (opcode 0x0#128).toNat = 0 ∧ (opcode 0x8000000000000000000000000000000F#128).toNat = 15 ∧
    operands 0xD1#128 = some (.encode 5 0 0 0 0) ∧ 0xD1#128 &&& reservedMask (.encode 5 0 0 0 0) ≠ 0#128 := by decide

theorem witness_StepRunsTheDecodedCommand :
    (presented 0x2#128).cfg.Admitted ∧ (presented 0x2#128).inputs = .command (transfer 0x2#128) :: [] ∧
    decodeBytes (transfer 0x2#128) = .ok .install := by decide

theorem witness_UndecodableWordsFaultWithoutEffect :
    (presented 0x9#128).cfg.Admitted ∧ Ready (presented 0x9#128) ∧
    (presented 0x9#128).inputs = .command (transfer 0x9#128) :: [] ∧ 9 ≤ (opcode 0x9#128).toNat ∧
    (opcode 0x0#128).toNat = 0 ∧
    operands 0x12#128 = some .install ∧ 0x12#128 &&& reservedMask .install ≠ 0#128 := by decide

theorem witness_FaultedCoreAcceptsNoCommand : faultedState.fault ≠ 0#4 ∧ faultedState.cfg.Admitted ∧
    ({ faultedState with inputs := [.command (transfer 0x4#128)] } : State).inputs =
      .command (transfer 0x4#128) :: [] := by decide

/-- Byte addresses just outside and just inside the framebuffer, and a `RESP` with and without a value. -/
theorem witness_HostMovesBetweenCommands : ¬ overlapping.cfg.Admitted ∧ State.reset.cfg.Admitted ∧
    State.reset.inputs = [] ∧ ¬ State.reset.cfg.Owned 0xB7FFF ∧ State.reset.cfg.Owned 0xB8000 ∧
    State.reset.cfg.Owned 0xB8F9F ∧ ¬ State.reset.cfg.Owned 0xB8FA0 ∧ State.reset.resp = none ∧
    ({ State.reset with resp := some nullDescriptor } : State).resp = some nullDescriptor := by decide

/-- The moves, and a byte of `TBL`, `PTR` and `FB` for the host to read. -/
theorem witness_HostMovesBetweenCommands_moves :
    ({ State.reset with inputs := [.hostByte 0x00200000#32 0x61#8] } : State).inputs =
      .hostByte 0x00200000#32 0x61#8 :: [] ∧
    ({ State.reset with inputs := [.readResp] } : State).inputs = .readResp :: [] ∧
    ({ State.reset with inputs := [.readMemory 0xB8000#32] } : State).inputs = .readMemory 0xB8000#32 :: [] ∧
    State.reset.cfg.Owned 0x00101000 ∧ State.reset.cfg.Owned 0x00101045 ∧ State.reset.cfg.Owned 0xB8000 := by decide

theorem witness_ProcessorSetsOnlyAccessedBits :
    ({ installedState with inputs := [.accessed .userData] } : State).inputs = .accessed .userData :: [] ∧
    installedState.cfg.Admitted ∧ installedState.installed = true ∧
    ({ State.reset with inputs := [.accessed .kernelCode] } : State).inputs = .accessed .kernelCode :: [] ∧
    State.reset.installed = false := by decide

/-- ENCODE at the last index, at the first index past it, before and after INSTALL. -/
theorem witness_EncodeWritesExactlyItsEntry : Ready State.reset ∧ Ready installedState ∧ (4#3).toNat < 5 ∧
    5 ≤ (5#3).toNat ∧ 5 ≤ (7#3).toNat ∧ State.reset.installed = false ∧ installedState.installed = true := by decide

theorem witness_EncodedEntryAsOneValue : Ready State.reset ∧ (4#3).toNat < 5 ∧ State.reset.installed = false := by decide

theorem witness_DecodeReadsTheEntry : Ready State.reset ∧ (4#3).toNat < 5 ∧ 5 ≤ (5#3).toNat := by decide

theorem witness_EncodeThenDecodeRoundTrips : (0#3).toNat < 5 ∧ (4#3).toNat < 5 ∧ State.reset.installed = false ∧
    Ready State.reset := by decide

theorem witness_InstallBuildsTheTableAndRequestsItsLoad : State.reset.cfg.Admitted ∧ Ready State.reset ∧
    State.reset.installed = false ∧ installedState.cfg.Admitted ∧ Ready installedState ∧
    installedState.installed = true := by decide

theorem witness_InstalledTableIsTheSpecTable : State.reset.cfg.Admitted ∧ State.reset.cfg.SpecValues ∧
    Ready State.reset ∧ State.reset.installed = false := by decide

theorem witness_InstalledTableIsFlat : State.reset.cfg.Admitted ∧ State.reset.cfg.SpecValues ∧
    Ready State.reset ∧ State.reset.installed = false := by decide

theorem witness_InstalledTableIsNeverMutated : installedState.cfg.Admitted ∧ installedState.row.toNat < 25 ∧
    installedState.col.toNat < 80 ∧ installedState.installed = true ∧
    exec (.moveCursor 0) installedState = .next (cursorTo 0 installedState) ∧
    installedState.cfg.InTable 0x00101000 ∧ installedState.cfg.InPointer 0x00101045 :=
  ⟨by decide, by decide, by decide, by decide, exec_of_effect (by decide) rfl, by decide, by decide⟩

/-- Offsets on both sides of each bound, at the spec's `FB_SIZE` and at another. -/
theorem witness_WriteCellStoresOrDiscards : Ready State.reset ∧ State.reset.cfg.SpecValues ∧
    (3999#32).toNat + 1 = State.reset.cfg.fbSize.toNat ∧ (3998#32).toNat + 1 < State.reset.cfg.fbSize.toNat ∧
    State.reset.cfg.fbSize.toNat ≤ (4000#32).toNat ∧ State.reset.cfg.fbSize.toNat ≤ (0xFFFFFFFF#32).toNat ∧
    Ready widerFb ∧ (4001#32).toNat + 1 = widerFb.cfg.fbSize.toNat ∧ (4000#32).toNat + 1 < widerFb.cfg.fbSize.toNat ∧
    widerFb.cfg.fbSize.toNat ≤ (4002#32).toNat := by decide

theorem witness_MoveCursorSendsFourPortWrites : Ready State.reset := by decide

theorem witness_ScrollMovesEveryRowUp : State.reset.cfg.Admitted ∧ Ready State.reset ∧ widerFb.cfg.Admitted ∧
    Ready widerFb := by decide

theorem witness_ClearLineBlanksTheRow : Ready State.reset ∧ (24#32).toNat < 25 ∧ 25 ≤ (25#32).toNat ∧
    State.reset.cfg.SpecValues := by decide

/-- The three ways a buffer is out of range (WS16, WS15, WS17). -/
theorem witness_WriteStringAdmitsOrFaults_range : State.reset.cfg.Admitted ∧ Ready State.reset ∧ 0 < (2#32).toNat ∧
    0xFFFFFFFF < (0xFFFFFFFF#32).toNat + (2#32).toNat - 1 ∧
    (∃ a, (0xB7FFF#32).toNat ≤ a ∧ a < (0xB7FFF#32).toNat + (2#32).toNat ∧ State.reset.cfg.Owned a) ∧
    (∃ a, (0x300000#32).toNat ≤ a ∧ a < (0x300000#32).toNat + (1#32).toNat ∧ byteAt State.reset a = none) :=
  ⟨by decide, by decide, by decide, by decide, ⟨0xB8000, by decide⟩, ⟨0x300000, by decide⟩⟩

/-- An admitted buffer at the very end of the address space. -/
theorem witness_WriteStringAdmitsOrFaults_admitted : (placedAt 0xFFFFFFFF [0x78#8]).cfg.Admitted ∧
    Ready (placedAt 0xFFFFFFFF [0x78#8]) ∧
    ¬ (0 < (1#32).toNat ∧ (0xFFFFFFFF < (0xFFFFFFFF#32).toNat + (1#32).toNat - 1 ∨
        (∃ a, (0xFFFFFFFF#32).toNat ≤ a ∧ a < (0xFFFFFFFF#32).toNat + (1#32).toNat ∧
          (placedAt 0xFFFFFFFF [0x78#8]).cfg.Owned a) ∨
        (∃ a, (0xFFFFFFFF#32).toNat ≤ a ∧ a < (0xFFFFFFFF#32).toNat + (1#32).toNat ∧
          byteAt (placedAt 0xFFFFFFFF [0x78#8]) a = none))) :=
  ⟨admitted_textAt 0 0 [], rfl, in_range_of_placed (bs := [0x78#8]) rfl (placed_of_cells rfl rfl (by decide) (by decide))⟩

/-- A break on row 23 and on row 24. -/
theorem witness_LineBreakPassEndsOnTheNextRow : (textAt 24 79 [0x0A#8]).cfg.Admitted ∧ Ready (textAt 24 79 [0x0A#8]) ∧
    (textAt 24 79 [0x0A#8]).row.toNat = 24 ∧ (textAt 23 79 [0x0A#8]).cfg.Admitted ∧ Ready (textAt 23 79 [0x0A#8]) ∧
    (textAt 23 79 [0x0A#8]).row.toNat < 24 ∧ Breaks 0x0A#8 ∧
    Placed (textAt 24 79 [0x0A#8]) 0x00200000#32 [0x0A#8] ∧ Placed (textAt 23 79 [0x0A#8]) 0x00200000#32 [0x0A#8] :=
  ⟨admitted_textAt _ _ _, rfl, by decide, admitted_textAt _ _ _, rfl, by decide, by decide,
    placed_textAt _ _ _ (by decide), placed_textAt _ _ _ (by decide)⟩

/-- A byte in column 78, in column 79 of row 23, and in the last cell. -/
theorem witness_PrintablePassWritesItsCell : ¬ Breaks 0x51#8 ∧
    ((textAt 0 78 [0x51#8]).cfg.Admitted ∧ Ready (textAt 0 78 [0x51#8]) ∧
      (textAt 0 78 [0x51#8]).row.toNat < 25 ∧ (textAt 0 78 [0x51#8]).col.toNat < 79 ∧
      Placed (textAt 0 78 [0x51#8]) 0x00200000#32 [0x51#8]) ∧
    ((textAt 23 79 [0x51#8]).cfg.Admitted ∧ Ready (textAt 23 79 [0x51#8]) ∧
      (textAt 23 79 [0x51#8]).row.toNat < 24 ∧ (textAt 23 79 [0x51#8]).col.toNat = 79 ∧
      Placed (textAt 23 79 [0x51#8]) 0x00200000#32 [0x51#8]) ∧
    ((textAt 24 79 [0x51#8]).cfg.Admitted ∧ Ready (textAt 24 79 [0x51#8]) ∧
      (textAt 24 79 [0x51#8]).row.toNat = 24 ∧ (textAt 24 79 [0x51#8]).col.toNat = 79 ∧
      Placed (textAt 24 79 [0x51#8]) 0x00200000#32 [0x51#8]) :=
  ⟨by decide, ⟨admitted_textAt _ _ _, rfl, by decide, by decide, placed_textAt _ _ _ (by decide)⟩,
    ⟨admitted_textAt _ _ _, rfl, by decide, by decide, placed_textAt _ _ _ (by decide)⟩,
    ⟨admitted_textAt _ _ _, rfl, by decide, by decide, placed_textAt _ _ _ (by decide)⟩⟩

/-- The premises hold for two line breaks placed on a row of the grid. -/
theorem pairs_premises (row : Word32) (b n : Byte) (hr : row.toNat < 25) (hb : Breaks b) (hn : Breaks n) :
    (textAt row 0 [b, n]).cfg.Admitted ∧ Ready (textAt row 0 [b, n]) ∧ (textAt row 0 [b, n]).row.toNat < 25 ∧
    Breaks b ∧ Breaks n ∧ Placed (textAt row 0 [b, n]) 0x00200000#32 [b, n] :=
  ⟨admitted_textAt _ _ _, rfl, hr, hb, hn, placed_textAt _ _ _ (by simp)⟩

/-- A pair on rows 23 and 24: one advance, then one scroll. -/
theorem witness_PairsOfLineBreaksAdvanceOnce : Pairs 0x0D#8 0x0A#8 ∧ Pairs 0x0A#8 0x0D#8 ∧
    Placed (textAt 23 0 [0x0D#8, 0x0A#8]) 0x00200000#32 [0x0D#8, 0x0A#8] ∧
    Placed (textAt 24 0 [0x0A#8, 0x0D#8]) 0x00200000#32 [0x0A#8, 0x0D#8] :=
  ⟨by decide, by decide, (pairs_premises 23 _ _ (by decide) (by decide) (by decide)).2.2.2.2.2,
    (pairs_premises 24 _ _ (by decide) (by decide) (by decide)).2.2.2.2.2⟩

/-- Two breaks that are no pair, on rows 22, 23 and 24: no scroll, one, and two (WS4, WS5). -/
theorem witness_PairsOfLineBreaksAdvanceOnce_twoBreaks : ¬ Pairs 0x0D#8 0x0D#8 ∧ ¬ Pairs 0x00#8 0x0A#8 ∧
    Placed (textAt 22 0 [0x0D#8, 0x0D#8]) 0x00200000#32 [0x0D#8, 0x0D#8] ∧
    Placed (textAt 23 0 [0x00#8, 0x0A#8]) 0x00200000#32 [0x00#8, 0x0A#8] ∧
    Placed (textAt 24 0 [0x00#8, 0x0A#8]) 0x00200000#32 [0x00#8, 0x0A#8] :=
  ⟨by decide, by decide, (pairs_premises 22 _ _ (by decide) (by decide) (by decide)).2.2.2.2.2,
    (pairs_premises 23 _ _ (by decide) (by decide) (by decide)).2.2.2.2.2,
    (pairs_premises 24 _ _ (by decide) (by decide) (by decide)).2.2.2.2.2⟩

theorem witness_StringsContinueWhereTheLastEnded : ∀ b n : Byte, ([0x61#8, 0x0A#8] : List Byte).getLast? = some b →
    ([0x0A#8, 0x62#8] : List Byte).head? = some n → ¬ Pairs b n := by
  intro b n hb hn; simp at hb hn; subst hb hn; decide

theorem witness_FullRowWrapsToTheNext : (textAt 23 0 (List.replicate 80 0x78#8)).cfg.Admitted ∧
    Ready (textAt 23 0 (List.replicate 80 0x78#8)) ∧
    (textAt 23 0 (List.replicate 80 0x78#8)).row.toNat < 24 ∧ (textAt 23 0 (List.replicate 80 0x78#8)).col = 0#32 ∧
    (List.replicate 80 0x78#8).length = 80 ∧ (∀ b ∈ List.replicate 80 0x78#8, ¬ Breaks b) ∧
    Placed (textAt 23 0 (List.replicate 80 0x78#8)) 0x00200000#32 (List.replicate 80 0x78#8) :=
  ⟨admitted_textAt _ _ _, rfl, by decide, rfl, by decide, by decide, placed_textAt _ _ _ (by decide)⟩

theorem witness_LastCellScrollsItsCharacter : (textAt 24 79 [0x51#8]).cfg.Admitted ∧
    Ready (textAt 24 79 [0x51#8]) ∧ (textAt 24 79 [0x51#8]).row = 24#32 ∧
    (textAt 24 79 [0x51#8]).col = 79#32 ∧ ¬ Breaks 0x51#8 ∧
    Placed (textAt 24 79 [0x51#8]) 0x00200000#32 [0x51#8] :=
  ⟨admitted_textAt _ _ _, rfl, rfl, rfl, by decide, placed_textAt _ _ _ (by decide)⟩

theorem witness_WriteStringFrame : (textAt 5 0 [0x61#8, 0x0A#8]).cfg.Admitted ∧
    Ready (textAt 5 0 [0x61#8, 0x0A#8]) ∧ (textAt 5 0 [0x61#8, 0x0A#8]).row.toNat < 25 ∧
    (textAt 5 0 [0x61#8, 0x0A#8]).col.toNat < 80 ∧ ([0x61#8, 0x0A#8] : List Byte).length = (2#32).toNat ∧
    Placed (textAt 5 0 [0x61#8, 0x0A#8]) 0x00200000#32 [0x61#8, 0x0A#8] :=
  ⟨admitted_textAt _ _ _, rfl, by decide, by decide, rfl, placed_textAt _ _ _ (by decide)⟩

theorem witness_WriteStringIsTheSpecLoop : (textAt 5 0 [0x0D#8, 0x0A#8, 0x61#8]).cfg.Admitted ∧
    Ready (textAt 5 0 [0x0D#8, 0x0A#8, 0x61#8]) ∧ (textAt 5 0 [0x0D#8, 0x0A#8, 0x61#8]).row.toNat < 25 ∧
    (textAt 5 0 [0x0D#8, 0x0A#8, 0x61#8]).col.toNat < 80 ∧
    ([0x0D#8, 0x0A#8, 0x61#8] : List Byte).length = (3#32).toNat ∧
    Placed (textAt 5 0 [0x0D#8, 0x0A#8, 0x61#8]) 0x00200000#32 [0x0D#8, 0x0A#8, 0x61#8] :=
  ⟨admitted_textAt _ _ _, rfl, by decide, by decide, rfl, placed_textAt _ _ _ (by decide)⟩

theorem witness_ScrollIsTheByteLoop : Ready State.reset := by decide

theorem witness_ClearLineIsTheCellLoop : State.reset.cfg.Admitted ∧ Ready State.reset ∧ (24#32).toNat < 25 := by decide

theorem witness_EncodeIsTheSixWrites : Ready State.reset ∧ (4#3).toNat < 5 ∧ State.reset.installed = false := by decide

/-- The reset state meets the invariant's clauses, and a step leads on from it. -/
theorem witness_StepKeepsTheInvariant : Inv (presented 0x6#128) ∧
    step (presented 0x6#128) = .next (scrollUp State.reset) := by
  refine ⟨⟨by decide, by decide, by decide, by decide, by decide, by decide, by decide, fun h => ?_, fun e h => ?_⟩, ?_⟩
  · exact absurd h (by decide)
  · exact absurd h List.not_mem_nil
  · have hd : decodeBytes (transfer 0x6#128) = .ok .scroll := by decide
    rw [step, if_pos (by decide)]
    change stepCommand (transfer 0x6#128) State.reset = _
    rw [stepCommand, hd]
    exact exec_of_effect rfl rfl

theorem witness_LaunchMeetsTheInvariant : Memory.wf Launch.ofVectors.mem ∧
    State.launch Launch.ofVectors = some State.reset := by decide

/-- An admitted launch at the spec's `FB_SIZE` and at another, one R7 refuses, and one whose grid does not fit. -/
theorem witness_LaunchStateIsTheResetState : Launch.ofVectors.params.Admitted ∧ widerFb.cfg.Admitted ∧
    ¬ overlapping.cfg.Admitted ∧ ¬ ({ State.reset.cfg with fbSize := 3999#32 } : Params).Admitted := by decide

/-- Each premise that depends on the command, for a command that has it. -/
theorem witness_WellFormedCommandsDoNotFault : State.reset.cfg.Admitted ∧ Ready State.reset ∧
    State.reset.installed = false ∧ (Instr.encode 4 0 0 0 0).wellFormed vectors = true ∧
    (textAt 5 0 [0x61#8]).cfg.Admitted ∧ Ready (textAt 5 0 [0x61#8]) ∧
    (Instr.writeString 0x00200000 1 7 0).wellFormed (textAt 5 0 [0x61#8]).cfg = true ∧
    ([0x61#8] : List Byte).length = (1#32).toNat ∧ Placed (textAt 5 0 [0x61#8]) 0x00200000#32 [0x61#8] :=
  ⟨by decide, by decide, by decide, by decide, admitted_textAt _ _ _, rfl, by decide, rfl, placed_textAt _ _ _ (by decide)⟩

theorem witness_FaultsArePrecise : Ready State.reset ∧
    exec (.clearLine 25) State.reset = .next (raise .rowRange (encode (.clearLine 25)) State.reset) ∧
    (raise .rowRange (encode (.clearLine 25)) State.reset).fault ≠ 0#4 :=
  ⟨rfl, by rw [exec, execClearLine, accept_of_ready rfl, if_pos (by decide)], by decide⟩

theorem witness_FaultedCoreIsStuck : faultedState.fault ≠ 0#4 ∧ step faultedState = .next faultedState :=
  ⟨by decide, by rw [step, if_pos (by decide)]; rfl⟩

theorem witness_InstalledIsSetByInstallOnly : exec .install State.reset = .next installedState ∧
    exec (.decode 7) State.reset = .next (raise .badIndex (encode (.decode 7)) State.reset) :=
  ⟨exec_of_effect rfl ⟨rfl, rfl⟩, by rw [exec, execDecode, accept_of_ready rfl, if_pos (by decide)]⟩

theorem witness_RegistersHaveOneWriter : ∃ t, exec (.writeString 0x00200000 1 7 0) (textAt 5 0 [0x0A#8]) = .next t ∧
    t.row ≠ 5#32 := by
  exact ⟨stringPasses 7 0 [0x0A#8] (textAt 5 0 [0x0A#8]), exec_of_effect rfl ⟨_, by decide, rfl⟩, by decide⟩

theorem witness_CommandsWriteOnlyOwnedMemory : State.reset.cfg.Admitted ∧ State.reset.row.toNat < 25 ∧
    State.reset.col.toNat < 80 ∧ exec .install State.reset = .next installedState ∧
    ¬ State.reset.cfg.Owned 0x00101028 ∧ ¬ State.reset.cfg.Owned 0x00100FFF :=
  ⟨by decide, by decide, by decide, exec_of_effect rfl ⟨rfl, rfl⟩, by decide, by decide⟩

theorem witness_UnitsTouchDisjointResources : State.reset.cfg.Admitted ∧ State.reset.row.toNat < 25 ∧
    State.reset.col.toNat < 80 ∧
    exec .install State.reset = .next installedState ∧
    exec (.moveCursor 0) State.reset = .next (cursorTo 0 State.reset) :=
  ⟨by decide, by decide, by decide, exec_of_effect rfl ⟨rfl, rfl⟩, exec_of_effect rfl rfl⟩

theorem witness_TraceGrowsAndDrivesTheCursor :
    exec (.moveCursor 0xFFFF) State.reset = .next (cursorTo 0xFFFF State.reset) := exec_of_effect rfl rfl

theorem witness_PseudoCommandsExpand : 65536 ≤ 25 * 80 + 63536 ∧ 4294967296 ≤ 2 * (26843546 * 80 + 0) := by decide

end Sys2Proof.Tests
end

section
/-! Which registers a command may change (10_state.md). -/

namespace Sys2Proof.Machine

/-- The effect of a command keeps the parameters, the pending moves and what the host last read; only the passes of
WRITE_STRING move the position (R22, R166), only DECODE fills `RESP` (R25). -/
theorem effect_registers {i : Instr} {s t : State} (h : Effect i s t) :
    t.cfg = s.cfg ∧ t.inputs = s.inputs ∧ t.hostRead = s.hostRead ∧
    (t.row ≠ s.row ∨ t.col ≠ s.col → ∃ buf len fg bg, i = .writeString buf len fg bg) ∧
    (t.resp ≠ s.resp → ∃ idx, i = .decode idx) := by
  cases i with
  | encode idx base limit access flags => obtain ⟨-, -, rfl⟩ := h; simp
  | install => obtain ⟨-, rfl⟩ := h; simp
  | writeCell off ch fg bg => obtain ⟨-, rfl⟩ := h; simp
  | moveCursor pos => obtain rfl := h; simp
  | writeString buf len fg bg =>
    obtain ⟨bs, -, rfl⟩ := h
    obtain ⟨hcfg, -, -, -, hresp, hinputs, hread⟩ := stringPasses_frame fg bg bs s
    exact ⟨hcfg, hinputs, hread, fun _ => ⟨buf, len, fg, bg, rfl⟩, fun hne => absurd hresp hne⟩
  | scroll => obtain rfl := h; simp
  | clearLine row => obtain ⟨-, rfl⟩ := h; simp
  | decode idx => obtain ⟨-, rfl⟩ := h; simp

/-- Settles O44: a command that is not taken or faults changes none of these registers, and an effect changes them
as `effect_registers` says. -/
theorem registersHaveOneWriter : Obligations.RegistersHaveOneWriter := by
  intro i s t h
  obtain ⟨-, rfl⟩ | ⟨-, ⟨c, rfl⟩ | heffect⟩ := exec_cases h
  · simp
  · simp
  · exact effect_registers heffect

end Sys2Proof.Machine
end

section
/-! The descriptor table (40_descriptor_table.md): ENCODE as its six writes (R121), the fields DECODE reads (R123), and
what INSTALL writes and requests (R126, R128, R131). -/

namespace Sys2Proof.Machine

open Sys2Proof.Config

/-! ## Little-endian bytes as fields of a vector (R50) -/

/-- The little-endian bytes of a vector from byte `k` on, as the recursion of `leBytes` needs it. -/
theorem leBytes_toNat_shiftRight {w : Nat} (v : BitVec w) (n k : Nat) :
    leBytes n (v.toNat >>> (8 * k)) = (List.range n).map (fun j => v.extractLsb' (8 * (k + j)) 8) := by
  induction n generalizing k with
  | zero => rfl
  | succ n ih =>
    have hnext : (v.toNat >>> (8 * k)) / 256 = v.toNat >>> (8 * (k + 1)) := by
      rw [Nat.mul_succ, Nat.shiftRight_add, Nat.shiftRight_eq_div_pow _ 8]
    simp only [leBytes, hnext, ih, List.range_succ_eq_map, List.map_cons, List.map_map, Function.comp_def]
    simp [BitVec.extractLsb', Nat.add_assoc, Nat.add_comm 1]

/-- Byte `j` of a vector written little-endian is its bits `8j` to `8j+7` (R50). -/
theorem leBytes_toNat {w : Nat} (v : BitVec w) (n : Nat) :
    leBytes n v.toNat = (List.range n).map (fun j => v.extractLsb' (8 * j) 8) := by
  simpa using leBytes_toNat_shiftRight v n 0

/-! ## ENCODE as its six writes (R121) -/

/-- Two stores, the second just above the first, are one store. -/
theorem storeBytes_storeBytes (s : State) (a : Nat) (bs cs : List Byte) :
    storeBytes (storeBytes s a bs) (a + bs.length) cs = storeBytes s a (bs ++ cs) := by
  simp only [storeBytes, memWrite_memWrite]

/-- Writing a run byte after byte is writing it at once (R54). -/
theorem byteWrites_cons_eq_storeBytes (a : Nat) (b : Byte) (bs : List Byte) (s : State) :
    byteWrites a (b :: bs) s = storeBytes s a (b :: bs) := by
  induction bs generalizing a b s with
  | nil => rfl
  | cons c cs ih =>
    calc byteWrites a (b :: c :: cs) s
        = byteWrites (a + 1) (c :: cs) (storeBytes s a [b]) := rfl
      _ = storeBytes (storeBytes s a [b]) (a + [b].length) (c :: cs) := ih _ _ _
      _ = storeBytes s a (b :: c :: cs) := storeBytes_storeBytes s a [b] (c :: cs)

/-- The low sixteen bits of a vector, as the two bytes a 2-byte `MemWrite` writes (R50). -/
theorem leBytes_two_extractLsb' {w : Nat} (v : BitVec w) :
    leBytes 2 (v.extractLsb' 0 16).toNat = [v.extractLsb' 0 8, v.extractLsb' 8 8] := by
  rw [leBytes_toNat]
  simp [List.range_succ, BitVec.extractLsb'_extractLsb'_of_le]

/-- The six writes of R121 leave what the eight bytes of R90 written at once leave: byte 6 is the flags shifted over
the limit's high nibble in the one, their concatenation in the other. -/
theorem encodeEntrySteps_eq_encodeEntry (n : Nat) (d : Descriptor) (s : State) :
    encodeEntrySteps n d s = encodeEntry n d s := by
  have hbytes : encodeEntry n d s = byteWrites (entryAddress s.cfg n) (descriptorBytes d) s :=
    (byteWrites_cons_eq_storeBytes _ _ _ s).symm
  rw [hbytes]
  simp only [encodeEntrySteps, leBytes_two_extractLsb', ← BitVec.setWidth_append_eq_shiftLeft_setWidth_or,
    BitVec.setWidth_eq]
  rfl

/-- Settles O35: ENCODE has the effect of `encodeEntry`, which the six writes leave. -/
theorem encodeIsTheSixWrites : Obligations.EncodeIsTheSixWrites := by
  intro s idx base limit access flags hready hidx hopen
  rw [encodeEntrySteps_eq_encodeEntry]
  exact exec_of_effect hready ⟨hidx, hopen, rfl⟩

/-! ## DECODE (R123) -/

theorem toNat_append_eq_add {m n : Nat} (x : BitVec m) (y : BitVec n) :
    (x ++ y).toNat = 2 ^ n * x.toNat + y.toNat := by
  rw [BitVec.toNat_append, ← Nat.shiftLeft_add_eq_or_of_lt y.isLt, Nat.shiftLeft_eq, Nat.mul_comm]

/-- The base of eight bytes, as a sum by place (R90). -/
theorem descriptorOf_base_toNat (b0 b1 b2 b3 b4 b5 b6 b7 : Byte) :
    (descriptorOf b0 b1 b2 b3 b4 b5 b6 b7).base.toNat =
      b2.toNat + 2 ^ 8 * b3.toNat + 2 ^ 16 * b4.toNat + 2 ^ 24 * b7.toNat := by
  simp only [descriptorOf, toNat_append_eq_add]
  omega

/-- The limit of eight bytes: its high nibble is the low nibble of byte 6 (R90). -/
theorem descriptorOf_limit_toNat (b0 b1 b2 b3 b4 b5 b6 b7 : Byte) :
    (descriptorOf b0 b1 b2 b3 b4 b5 b6 b7).limit.toNat =
      b0.toNat + 2 ^ 8 * b1.toNat + 2 ^ 16 * (b6.toNat % 16) := by
  simp only [descriptorOf, toNat_append_eq_add, BitVec.extractLsb'_toNat, Nat.shiftRight_zero]
  omega

/-- The flags of eight bytes: the high nibble of byte 6 (R90). -/
theorem descriptorOf_flags_toNat (b0 b1 b2 b3 b4 b5 b6 b7 : Byte) :
    (descriptorOf b0 b1 b2 b3 b4 b5 b6 b7).flags.toNat = b6.toNat / 16 := by
  have := b6.isLt
  simp only [descriptorOf, BitVec.extractLsb'_toNat, Nat.shiftRight_eq_div_pow]
  omega

/-- DECODE of an index above the table faults (R124). -/
theorem exec_decode_of_badIndex {s : State} {idx : BitVec 3} (hready : Ready s) (hidx : gdtEntries ≤ idx.toNat) :
    exec (.decode idx) s = .next (raise .badIndex (encode (.decode idx)) s) := by
  rw [exec, execDecode, accept_of_ready hready, if_pos hidx]

/-- Settles O13: DECODE has the effect of filling `RESP` with `decodeEntry`, whose fields the byte sums give. -/
theorem decodeReadsTheEntry : Obligations.DecodeReadsTheEntry := by
  intro s idx hready
  refine ⟨fun hbad => exec_decode_of_badIndex hready hbad, fun hidx => ?_⟩
  exact ⟨decodeEntry idx.toNat s, exec_of_effect hready ⟨hidx, rfl⟩,
    descriptorOf_base_toNat .., descriptorOf_limit_toNat .., rfl, descriptorOf_flags_toNat ..⟩

/-! ## INSTALL (R126) -/

/-- A run read as two lists one after the other. -/
theorem readsAs_append {s : State} {a : Nat} {bs cs : List Byte} (h : ReadsAs s a (bs ++ cs)) :
    ReadsAs s a bs ∧ ReadsAs s (a + bs.length) cs := by
  simp only [ReadsAs, List.length_append] at h ⊢
  refine ⟨fun j hj => ?_, fun j hj => ?_⟩
  · rw [h j (by omega), List.getElem?_append_left hj]
  · rw [Nat.add_assoc, h (bs.length + j) (by omega), List.getElem?_append_right (by omega), Nat.add_sub_cancel_left]

/-- Core-owned memory that reads as a list is that list to the core. -/
theorem coreBytes_of_readsAs {s : State} {a : Nat} {bs : List Byte} (howned : ∀ j < bs.length, s.cfg.Owned (a + j))
    (h : ReadsAs s a bs) : coreBytes s a bs.length = bs := by
  apply List.ext_getElem?
  intro j
  rw [coreBytes_getElem?]
  split
  · rw [← byteAt_of_owned (howned j ‹_›), h j ‹_›]
  · rw [List.getElem?_eq_none (by omega)]

/-- A number stored little-endian in core-owned memory is loaded back, up to its count of bytes (R50). -/
theorem loadLE_of_readsAs {s : State} {a n v : Nat} (howned : ∀ j < n, s.cfg.Owned (a + j))
    (h : ReadsAs s a (leBytes n v)) : loadLE s a n = v % 256 ^ n := by
  have hbytes : coreBytes s a n = leBytes n v := by
    simpa using coreBytes_of_readsAs (by simpa using howned) h
  rw [loadLE, hbytes, leNat_leBytes]

/-- The table after INSTALL's writes (R127). -/
theorem readsAs_table_writeTables {s : State} (ha : s.cfg.Admitted) :
    ReadsAs (writeTables s) s.cfg.tableBase.toNat (installedTable s.cfg) := by
  intro j hj
  have hj' : j < 40 := hj
  rw [byteAt_writeTables ha, if_pos (by simp only [Params.InTable, gdtBytes]; omega), Nat.add_sub_cancel_left]

/-- The pointer record after INSTALL's writes: the table does not meet it (R7, R128). -/
theorem readsAs_pointer_writeTables {s : State} (ha : s.cfg.Admitted) :
    ReadsAs (writeTables s) s.cfg.ptrBase.toNat (pointerRecord s.cfg) := by
  intro j hj
  have hj' : j < 6 := hj
  obtain ⟨-, -, -, hapart, -⟩ := id ha
  simp only [Apart, gdtBytes, ptrBytes] at hapart
  rw [byteAt_writeTables ha, if_neg (by simp only [Params.InTable, gdtBytes]; omega),
    if_pos (by simp only [Params.InPointer, ptrBytes]; omega), Nat.add_sub_cancel_left]

/-- The six bytes of the pointer record: size 0x0027, then the table's address little-endian (R95, R128). -/
theorem pointerRecord_eq (p : Params) : pointerRecord p = [0x27#8, 0x00#8, p.tableBase.extractLsb' 0 8,
    p.tableBase.extractLsb' 8 8, p.tableBase.extractLsb' 16 8, p.tableBase.extractLsb' 24 8] := by
  rw [pointerRecord, leBytes_toNat p.tableBase]
  rfl

theorem owned_pointer {p : Params} {k : Nat} (hk : k < ptrBytes) : p.Owned (p.ptrBase.toNat + k) :=
  .inr (.inl ⟨by omega, by omega⟩)

/-- The request after INSTALL's writes carries the size and the table's address, read back from `PTR` (R131). -/
theorem requestLoad_writeTables {s : State} (ha : s.cfg.Admitted) : requestLoad (writeTables s) =
    { s with mem := (writeTables s).mem, installed := true,
             trace := s.trace ++ [.tableLoad gdtSizeField s.cfg.tableBase] } := by
  obtain ⟨hsize, haddress⟩ := readsAs_append (readsAs_pointer_writeTables ha)
  rw [leBytes_length] at haddress
  have hloadSize : loadLE (writeTables s) s.cfg.ptrBase.toNat 2 = 39 :=
    loadLE_of_readsAs (fun j hj => owned_pointer (by simp only [ptrBytes]; omega)) hsize
  have hloadAddress : loadLE (writeTables s) (s.cfg.ptrBase.toNat + 2) 4 = s.cfg.tableBase.toNat := by
    rw [loadLE_of_readsAs (fun j hj => ?_) haddress]
    · exact Nat.mod_eq_of_lt s.cfg.tableBase.isLt
    · rw [Nat.add_assoc]
      exact owned_pointer (by simp only [ptrBytes]; omega)
  rw [requestLoad, writeTables_cfg, hloadSize, hloadAddress, BitVec.ofNat_toNat, BitVec.setWidth_eq,
    writeTables_frame s]
  rfl

/-- `requestLoad` writes no memory. -/
@[simp] theorem byteAt_requestLoad (s : State) : byteAt (requestLoad s) = byteAt s := byteAt_congr (by simp) (by simp)

/-- A second INSTALL faults (R126). -/
theorem exec_install_of_installed {s : State} (hready : Ready s) (hinst : s.installed = true) :
    exec .install s = .next (raise .reinstall (encode .install) s) := by
  rw [exec, execInstall, accept_of_ready hready, if_pos hinst]

/-- Settles O15: the bytes are those of `writeTables`, the registers those of `requestLoad_writeTables`. -/
theorem installBuildsTheTableAndRequestsItsLoad : Obligations.InstallBuildsTheTableAndRequestsItsLoad := by
  intro s ha hready
  refine ⟨fun hinst => exec_install_of_installed hready hinst, fun hopen =>
    ⟨requestLoad (writeTables s), exec_of_effect hready ⟨hopen, rfl⟩, ?_, ?_, fun a htable hpointer => ?_, ?_⟩⟩
  · simpa only [ReadsAs, byteAt_requestLoad] using readsAs_table_writeTables ha
  · rw [← pointerRecord_eq]
    simpa only [ReadsAs, byteAt_requestLoad] using readsAs_pointer_writeTables ha
  · rw [byteAt_requestLoad, byteAt_writeTables ha, if_neg htable, if_neg hpointer]
  · rw [requestLoad_mem]
    exact requestLoad_writeTables ha

end Sys2Proof.Machine
end

section
/-! The console unit (41_console.md): WRITE_CELL and MOVE_CURSOR (R151 to R154), SCROLL and the clearing of a row as
their loops (R155, R157), the pass over a line-break byte (R161, R165), and WRITE_STRING as its loop (R160). -/

namespace Sys2Proof.Machine

open Sys2Proof.Config

/-! ## WRITE_CELL and MOVE_CURSOR -/

/-- WRITE_CELL at the framebuffer's last byte faults (R152). -/
theorem exec_writeCell_of_overrun {s : State} (hready : Ready s) {off : Word32}
    (hoff : off.toNat + 1 = s.cfg.fbSize.toNat) (ch : Byte) (fg bg : BitVec 4) :
    exec (.writeCell off ch fg bg) s = .next (raise .cellOverrun (encode (.writeCell off ch fg bg)) s) := by
  rw [exec, execWriteCell, accept_of_ready hready, if_pos hoff]

/-- A write cell inside the framebuffer is the store of its two bytes (R151). -/
theorem putCell_of_inside {s : State} {i : Word32} (hi : i.toNat < s.cfg.fbSize.toNat) (ch : Byte) (fg bg : BitVec 4) :
    putCell i ch fg bg s = storeBytes s (fbBase + i.toNat) [ch, attrByte fg bg] :=
  if_neg (Nat.not_le.mpr hi)

/-- A write cell outside the framebuffer is its discard event (R151). -/
theorem putCell_of_outside {s : State} {i : Word32} (hi : s.cfg.fbSize.toNat ≤ i.toNat) (ch : Byte) (fg bg : BitVec 4) :
    putCell i ch fg bg s = emit (.cellDiscard i) s :=
  if_pos hi

/-- The colours of a cell as R97 packs them: the foreground shifted over the background. -/
theorem attrByte_eq_shiftLeft_or (fg bg : BitVec 4) : attrByte fg bg = (fg.setWidth 8 <<< 4) ||| bg.setWidth 8 := by
  rw [attrByte, ← BitVec.setWidth_append_eq_shiftLeft_setWidth_or, BitVec.setWidth_eq]

/-- A stored run reads back. -/
theorem readsAs_storeBytes (s : State) (a : Nat) (bs : List Byte) : ReadsAs (storeBytes s a bs) a bs := by
  intro j hj
  rw [byteAt_storeBytes, if_pos (by omega), Nat.add_sub_cancel_left]

/-- A store leaves the bytes outside its run. -/
theorem sameOutside_storeBytes (s : State) (a : Nat) (bs : List Byte) :
    SameOutside s (storeBytes s a bs) a bs.length := by
  intro x hx
  rw [byteAt_storeBytes, if_neg (by omega)]

/-- Settles O19: off the last byte the effect is `putCell`, which stores or discards. -/
theorem writeCellStoresOrDiscards : Obligations.WriteCellStoresOrDiscards := by
  intro s off ch fg bg hready
  refine ⟨fun hlast => exec_writeCell_of_overrun hready hlast ch fg bg, fun hin => ?_, fun hout => ?_,
    fun hspec hoff => exec_writeCell_of_overrun hready ?_ ch fg bg⟩
  · have hstore := putCell_of_inside (s := s) (i := off) (by omega) ch fg bg
    rw [← attrByte_eq_shiftLeft_or]
    exact ⟨_, exec_of_effect hready ⟨by omega, hstore.symm⟩, readsAs_storeBytes _ _ _, sameOutside_storeBytes _ _ _,
      rfl⟩
  · exact exec_of_effect hready ⟨by omega, (putCell_of_outside hout ch fg bg).symm⟩
  · rw [hspec.1, hoff]
    rfl

/-- Settles O20: the effect is `cursorTo`, whose four port writes are one update. -/
theorem moveCursorSendsFourPortWrites : Obligations.MoveCursorSendsFourPortWrites := by
  intro s pos hready
  exact exec_of_effect hready (cursorTo_eq pos s).symm

/-! ## SCROLL and the clearing of a row as their loops (R155, R157) -/

/-- A byte read above a stored run is the one that was there. -/
theorem coreByte_storeBytes_of_above {s : State} {a x : Nat} {bs : List Byte} (hx : a + bs.length ≤ x) :
    coreByte (storeBytes s a bs) x = coreByte s x := by
  rw [coreByte_storeBytes, if_neg (by omega)]

theorem coreBytes_succ (s : State) (a n : Nat) : coreBytes s a (n + 1) = coreBytes s a n ++ [coreByte s (a + n)] := by
  simp [coreBytes, List.range_succ]

/-- An ascending copy from `d` above, byte after byte: each pass reads above what the passes before it stored, so
that the loop stores what the source held at first. -/
theorem copyLoop_eq_storeBytes (s : State) (a d : Nat) {n : Nat} (hn : 0 < n) :
    (List.range n).foldl (fun t j => storeBytes t (a + j) [coreByte t (a + (j + d))]) s =
      storeBytes s a (coreBytes s (a + d) n) := by
  induction n, hn using Nat.le_induction with
  | base => simp [List.range_succ, coreBytes]
  | succ n _ ih =>
    have hread : coreByte (storeBytes s a (coreBytes s (a + d) n)) (a + (n + d)) = coreByte s (a + d + n) := by
      rw [coreByte_storeBytes_of_above (by rw [coreBytes_length]; omega), Nat.add_assoc, Nat.add_comm d]
    have hjoin := storeBytes_storeBytes s a (coreBytes s (a + d) n) [coreByte s (a + d + n)]
    rw [coreBytes_length] at hjoin
    rw [List.range_succ, List.foldl_append, ih, List.foldl_cons, List.foldl_nil, hread, hjoin, coreBytes_succ]

/-- The loop of R155 leaves what the copy of all its bytes at once leaves. -/
theorem scrollLoop_eq_scrollUp (s : State) : scrollLoop s = scrollUp s :=
  copyLoop_eq_storeBytes s fbBase rowBytes (n := gridBytes - rowBytes) (by decide)

/-- Settles O33: SCROLL has the effect of `scrollUp`, which the loop leaves. -/
theorem scrollIsTheByteLoop : Obligations.ScrollIsTheByteLoop := by
  intro s hready
  rw [scrollLoop_eq_scrollUp]
  exact exec_of_effect hready rfl

/-- `n` equal cells, as bytes; a blank row is `FB_WIDTH` of them. -/
def cellRun (n : Nat) (ch attr : Byte) : List Byte := (List.replicate n [ch, attr]).flatten

@[simp] theorem cellRun_length (n : Nat) (ch attr : Byte) : (cellRun n ch attr).length = cellBytes * n := by
  simp [cellRun, cellBytes, Nat.mul_comm]

theorem cellRun_succ (n : Nat) (ch attr : Byte) : cellRun (n + 1) ch attr = cellRun n ch attr ++ [ch, attr] := by
  simp [cellRun, List.replicate_succ']

/-- The cells of a row of the grid from column 0 on, written one after the other, are one run of bytes. -/
theorem cellLoop_eq_storeBytes {s : State} (ha : s.cfg.Admitted) {r n : Nat} (hr : r < fbHeight) (hn : 0 < n)
    (hwidth : n ≤ fbWidth) :
    (List.range n).foldl (fun t c =>
      putCell (BitVec.ofNat 32 (2 * (r * fbWidth + c))) t.cfg.clearChar t.cfg.clearFg t.cfg.clearBg t) s =
      storeBytes s (fbBase + rowBytes * r) (cellRun n s.cfg.clearChar (attrByte s.cfg.clearFg s.cfg.clearBg)) := by
  have hcell : ∀ t : State, t.cfg.Admitted → ∀ c < fbWidth,
      putCell (BitVec.ofNat 32 (2 * (r * fbWidth + c))) t.cfg.clearChar t.cfg.clearFg t.cfg.clearBg t =
        storeBytes t (fbBase + rowBytes * r + cellBytes * c)
          [t.cfg.clearChar, attrByte t.cfg.clearFg t.cfg.clearBg] := by
    intro t ht c hc
    have haddr : fbBase + rowBytes * r + cellBytes * c = fbBase + cellBytes * (r * fbWidth + c) := by
      simp only [rowBytes, cellBytes, fbWidth]; omega
    rw [haddr]
    exact putCell_cell ht (by simp only [fbWidth, fbHeight] at *; omega) _ _ _
  induction n, hn using Nat.le_induction with
  | base => simpa [List.range_succ, cellRun] using hcell s ha 0 (by decide)
  | succ n _ ih =>
    have hjoin := storeBytes_storeBytes s (fbBase + rowBytes * r)
      (cellRun n s.cfg.clearChar (attrByte s.cfg.clearFg s.cfg.clearBg))
      [s.cfg.clearChar, attrByte s.cfg.clearFg s.cfg.clearBg]
    rw [cellRun_length] at hjoin
    rw [List.range_succ, List.foldl_append, ih (by omega), List.foldl_cons, List.foldl_nil,
      hcell _ (by exact ha) n (by omega), storeBytes_cfg, hjoin, cellRun_succ]

/-- The loop of R157 leaves what the row's bytes written at once leave. -/
theorem clearLineLoop_eq_blankLine {s : State} (ha : s.cfg.Admitted) {r : Nat} (hr : r < fbHeight) :
    clearLineLoop r s = blankLine r s :=
  cellLoop_eq_storeBytes ha hr (by decide) le_rfl

/-- The overflow check over the loops of R155 and R157 (R165). -/
theorem overflowLoop_eq_overflowCheck {s : State} (ha : s.cfg.Admitted) : overflowLoop s = overflowCheck s := by
  unfold overflowLoop overflowCheck
  rw [scrollLoop_eq_scrollUp, clearLineLoop_eq_blankLine (by exact ha) (by decide)]

/-! ## WRITE_STRING of a placed buffer (R159, R161) -/

/-- A placed buffer is admitted (R159). -/
theorem admitBuffer_of_placed {s : State} (ha : s.cfg.Admitted) {buf : Word32} {bs : List Byte}
    (h : Placed s buf bs) : admitBuffer s buf.toNat bs.length = some bs := by
  obtain ⟨hreads, hspace, hfree⟩ := h
  cases bs with
  | nil => rfl
  | cons b bs => exact (admitBuffer_eq_some ha (by simp)).mpr ⟨hspace, hfree, rfl, hreads⟩

/-- WRITE_STRING of a placed buffer has the effect of the passes over its bytes. -/
theorem exec_writeString_of_placed {s : State} (ha : s.cfg.Admitted) (hready : Ready s) {buf len : Word32}
    {bs : List Byte} (hlen : bs.length = len.toNat) (h : Placed s buf bs) (fg bg : BitVec 4) :
    exec (.writeString buf len fg bg) s = .next (stringPasses fg bg bs s) :=
  exec_of_effect hready ⟨bs, hlen ▸ admitBuffer_of_placed ha h, rfl⟩

/-- A line break above the last row (R161). -/
theorem breakPass_of_row_lt {s : State} (hrow : s.row.toNat < 24) :
    breakPass s = { s with row := s.row + 1#32, col := 0#32 } := by
  have hnext : (s.row + 1#32).toNat = s.row.toNat + 1 := by bv_omega
  exact if_neg (by simp only [hnext, fbHeight]; omega)

/-- A line break on the last row scrolls once and clears that row (R165). -/
theorem breakPass_of_last_row {s : State} (hrow : s.row = 24#32) :
    breakPass s = { blankLine 24 (scrollUp s) with col := 0#32 } := by
  have hfull : fbHeight ≤ (s.row + 1#32).toNat := by rw [hrow]; decide
  calc breakPass s
      = blankLine 24 (scrollUp { s with row := 24#32, col := 0#32 }) := if_pos hfull
    _ = { blankLine 24 (scrollUp s) with col := 0#32 } := by rw [← hrow]; rfl

/-- Settles O25: the one pass over the byte is `breakPass`. -/
theorem lineBreakPassEndsOnTheNextRow : Obligations.LineBreakPassEndsOnTheNextRow := by
  intro s buf b fg bg ha hready _ hb hplaced
  have hpass : stringPasses fg bg [b] s = breakPass s := if_pos ((isBreak_iff b).mpr hb)
  rw [exec_writeString_of_placed ha hready rfl hplaced, hpass]
  refine ⟨fun hrow => ?_, fun hrow => ?_⟩
  · rw [breakPass_of_row_lt hrow]
  · rw [breakPass_of_last_row (BitVec.eq_of_toNat_eq hrow)]

/-! ## WRITE_STRING as its loop (R160) -/

/-- The bytes `bs` are still to be processed, from address `a` on: they stand in memory, where no pass writes. -/
structure Pending (s : State) (a : Nat) (bs : List Byte) : Prop where
  ready : PassReady s
  reads : ReadsAs s a bs
  outside : ∀ j < bs.length, ¬ s.cfg.InFramebuffer (a + j)

section
variable {s : State} {a : Nat} {b : Byte} {bs : List Byte}

theorem Pending.head (h : Pending s a (b :: bs)) : byteAt s a = some b := h.reads 0 (by simp)

theorem Pending.tail (h : Pending s a (b :: bs)) : Pending s (a + 1) bs where
  ready := h.ready
  reads := (readsAs_append (bs := [b]) h.reads).2
  outside j hj := by simpa only [Nat.add_assoc, Nat.add_comm 1] using h.outside (j + 1) (by simpa using hj)

/-- What a pass must keep for the bytes still pending to stay so. -/
theorem Pending.of_pass {t : State} (h : Pending s a bs) (hready : PassReady t) (hcfg : t.cfg = s.cfg)
    (hbytes : ∀ x, ¬ s.cfg.InFramebuffer x → byteAt t x = byteAt s x) : Pending t a bs where
  ready := hready
  reads j hj := by rw [hbytes _ (h.outside j hj), h.reads j hj]
  outside := hcfg ▸ h.outside

theorem Pending.after_breakPass (h : Pending s a bs) : Pending (breakPass s) a bs :=
  h.of_pass (breakPass_ready h.ready) (breakPass_cfg s) fun _ hx => byteAt_breakPass_of_outside h.ready.1 hx

theorem Pending.after_printPass (h : Pending s a bs) (fg bg : BitVec 4) (b : Byte) : Pending (printPass fg bg b s) a bs :=
  h.of_pass (printPass_ready h.ready fg bg b) (printPass_cfg s fg bg b) fun _ hx =>
    byteAt_printPass_of_outside h.ready fg bg b hx

variable {buf len : Nat} {fg bg : BitVec 4} {fuel k : Nat}

/-- The loop ends at the end of the buffer. -/
theorem writeStringLoop_of_done (h : len ≤ k) : writeStringLoop buf len fg bg fuel k s = s := by
  cases fuel with
  | zero => rfl
  | succ fuel => exact if_neg (by omega)

/-- One pass of the loop over a printable byte (R163). -/
theorem writeStringLoop_of_print (hk : k < len) (h : Pending s (buf + k) (b :: bs)) (hb : ¬ isBreak b = true) :
    writeStringLoop buf len fg bg (fuel + 1) k s =
      writeStringLoop buf len fg bg fuel (k + 1) (printPass fg bg b s) := by
  rw [writeStringLoop, if_pos hk, h.head]
  simp only [if_neg hb]
  rw [overflowLoop_eq_overflowCheck (by simpa using h.ready.1)]
  rfl

/-- One pass of the loop over a line-break byte, which also takes the next one, if there is one and it makes a pair
(R162). -/
theorem writeStringLoop_of_break (hlen : k + (bs.length + 1) = len) (h : Pending s (buf + k) (b :: bs))
    (hb : isBreak b = true) :
    writeStringLoop buf len fg bg (fuel + 1) k s =
      writeStringLoop buf len fg bg fuel ((if bs.head?.any (isPair b) then k + 1 else k) + 1) (breakPass s) := by
  rw [writeStringLoop, if_pos (by omega), h.head]
  simp only [if_pos hb]
  rw [overflowLoop_eq_overflowCheck (by exact h.ready.1), breakPass]
  cases bs with
  | nil => rw [decide_eq_false (by simp only [List.length_nil] at hlen; omega)]; rfl
  | cons n rest =>
    rw [decide_eq_true (by simp only [List.length_cons] at hlen; omega), h.tail.head]
    rfl

end

/-- The passes over a list that is not empty: the first pass, then those over the bytes it leaves (R160, R162). -/
theorem stringPasses_cons (fg bg : BitVec 4) (b : Byte) (bs : List Byte) (s : State) :
    stringPasses fg bg (b :: bs) s =
      if isBreak b then stringPasses fg bg (if bs.head?.any (isPair b) then bs.tail else bs) (breakPass s)
      else stringPasses fg bg bs (printPass fg bg b s) := by
  cases bs with
  | nil => rfl
  | cons n rest =>
    rw [stringPasses, List.head?_cons, Option.any_some, List.tail_cons, apply_ite (stringPasses fg bg · (breakPass s))]

/-- The loop over the bytes still pending is the passes over their list. -/
theorem writeStringLoop_eq_stringPasses {buf len : Nat} {fg bg : BitVec 4} {bs : List Byte} {s : State} {fuel k : Nat}
    (hlen : k + bs.length = len) (hfuel : bs.length ≤ fuel) (h : Pending s (buf + k) bs) :
    writeStringLoop buf len fg bg fuel k s = stringPasses fg bg bs s := by
  induction fuel generalizing bs s k with
  | zero =>
    obtain rfl := List.length_eq_zero_iff.mp (Nat.le_zero.mp hfuel)
    rfl
  | succ fuel ih =>
    cases bs with
    | nil => exact writeStringLoop_of_done hlen.ge
    | cons b bs =>
      simp only [List.length_cons] at hlen hfuel
      rw [stringPasses_cons]
      by_cases hb : isBreak b = true
      · rw [writeStringLoop_of_break hlen h hb, if_pos hb]
        by_cases hpair : bs.head?.any (isPair b) = true
        · obtain ⟨n, rest, rfl⟩ : ∃ n rest, bs = n :: rest := List.exists_cons_of_ne_nil (by rintro rfl; cases hpair)
          simp only [List.length_cons] at hlen hfuel
          rw [if_pos hpair, if_pos hpair]
          exact ih (by rw [List.tail_cons]; omega) (by rw [List.tail_cons]; omega) h.tail.tail.after_breakPass
        · rw [if_neg hpair, if_neg hpair]
          exact ih (by omega) (by omega) h.tail.after_breakPass
      · rw [writeStringLoop_of_print (by omega) h hb, if_neg hb]
        exact ih (by omega) (by omega) (h.tail.after_printPass fg bg b)

/-- Settles O32: the effect of WRITE_STRING is the passes over the buffer's bytes, which the loop leaves. -/
theorem writeStringIsTheSpecLoop : Obligations.WriteStringIsTheSpecLoop := by
  intro s buf len bs fg bg ha hready hrow hcol hlen hplaced
  have hpending : Pending s buf.toNat bs :=
    { ready := ⟨ha, hrow, hcol⟩
      reads := hplaced.1
      outside := fun j hj hfb => hplaced.2.2 (buf.toNat + j) (by omega) (by omega) (.inr (.inr hfb)) }
  rw [exec_writeString_of_placed ha hready hlen hplaced, writeStringLoop_eq_stringPasses (by omega) hlen.le hpending]

end Sys2Proof.Machine
end

section
/-! Command words (30_encoding.md): the encoder and the decoder are inverse to each other (R80 to R88), and the opcode
table and the decode procedure R89 say which words decode. -/

namespace Sys2Proof

/-! ## Fields of a command word (R81, R100) -/

theorem field_all (w : CommandWord) : field w 0 128 = w := BitVec.extractLsb'_eq_self

/-- Fields that lie side by side are one field. -/
theorem field_append_field {w : CommandWord} {lo m hi n : Nat} (h : hi = lo + m) :
    field w hi n ++ field w lo m = field w lo (n + m) :=
  BitVec.extractLsb'_append_extractLsb'_eq_extractLsb' h

theorem field_and (w m : CommandWord) (lo n : Nat) : field (w &&& m) lo n = field w lo n &&& field m lo n :=
  BitVec.extractLsb'_and

@[simp] theorem field_zero (lo n : Nat) : field 0#128 lo n = 0#n := by simp [field]

/-- A field that a mask covers is 0 in a word that is 0 under that mask. -/
theorem field_eq_zero_of_masked {w m : CommandWord} (h : w &&& m = 0#128) (lo n : Nat)
    (hm : field m lo n = BitVec.allOnes n) : field w lo n = 0#n := by
  have hand := field_and w m lo n
  rw [h, hm, BitVec.and_allOnes, field_zero] at hand
  exact hand.symm

/-- A word is its opcode and the bits above it. -/
theorem eq_iff_opcode_and_rest {w v : CommandWord} : w = v ↔ opcode w = opcode v ∧ field w 4 124 = field v 4 124 := by
  refine ⟨fun h => by rw [h]; exact ⟨rfl, rfl⟩, fun ⟨hop, hrest⟩ => ?_⟩
  have hsplit : ∀ u : CommandWord, u = field u 4 124 ++ opcode u := fun u =>
    ((field_append_field (w := u) (lo := 0) (m := 4) rfl).trans (field_all u)).symm
  rw [hsplit w, hsplit v, hop, hrest]

/-! ## Encoding, then decoding -/

/-- The operands of an encoded command are the command's own: each field lies where its format has it (R82 to R87). -/
theorem operands_encode (i : Instr) : operands (encode i) = some i := by
  cases i with
  | install => rfl
  | scroll => rfl
  | _ =>
    simp (disch := decide) only [operands, opcode, field, encode, BitVec.extractLsb'_append_eq_of_add_le,
      BitVec.extractLsb'_append_eq_of_le, BitVec.extractLsb'_eq_self, Nat.reduceSub]
    rfl

/-- The reserved bits of an encoded command are 0 (R88). -/
theorem encode_and_reservedMask (i : Instr) : encode i &&& reservedMask i = 0#128 := by
  cases i with
  | encode idx base limit access flags => exact Laws.ReservedZero.encode idx base limit access flags
  | install => exact Laws.ReservedZero.install
  | writeCell off ch fg bg => exact Laws.ReservedZero.writeCell off ch fg bg
  | moveCursor pos => exact Laws.ReservedZero.moveCursor pos
  | writeString buf len fg bg => exact Laws.ReservedZero.writeString buf len fg bg
  | scroll => exact Laws.ReservedZero.scroll
  | clearLine row => exact Laws.ReservedZero.clearLine row
  | decode idx => exact Laws.ReservedZero.decode idx

/-- Settles O1: the transfer is read back as the word, whose operands are the command's and whose reserved bits
are 0. -/
theorem decodeOfEncodeIsTheCommand : Obligations.DecodeOfEncodeIsTheCommand := by
  intro i
  rw [decodeBytes_transfer, decodeWord_eq_ok]
  exact ⟨operands_encode i, encode_and_reservedMask i⟩

/-! ## Decoding, then encoding -/

/-- The command of a legal word has that word: its reserved fields are 0, its opcode is the command's, and the fields
side by side are the word. -/
theorem encode_of_operands {w : CommandWord} {i : Instr} (hi : operands w = some i)
    (hreserved : w &&& reservedMask i = 0#128) : encode i = w := by
  have hopcode : ∀ k : BitVec 4, (opcode w).toNat = k.toNat → field w 0 4 = k := fun k h => BitVec.eq_of_toNat_eq h
  unfold operands at hi
  split at hi <;> cases hi <;> simp only [reservedMask] at hreserved <;>
    have zero := field_eq_zero_of_masked hreserved
  case h_1 hop =>
    calc encode (.encode (field w 4 3) (field w 64 32) (field w 32 20) (field w 8 8) (field w 16 4))
        = field w 96 32 ++ field w 64 32 ++ field w 52 12 ++ field w 32 20 ++ field w 20 12 ++ field w 16 4 ++
            field w 8 8 ++ field w 7 1 ++ field w 4 3 ++ field w 0 4 := by
          rw [zero 96 32 (by decide), zero 52 12 (by decide), zero 20 12 (by decide), zero 7 1 (by decide),
            hopcode 1#4 hop, encode]
      _ = w := by simp (disch := decide) only [field_append_field]; exact field_all w
  case h_2 hop =>
    calc encode .install = field w 4 124 ++ field w 0 4 := by rw [zero 4 124 (by decide), hopcode 2#4 hop]; rfl
      _ = w := (field_append_field rfl).trans (field_all w)
  case h_3 hop =>
    calc encode (.writeCell (field w 32 32) (field w 16 8) (field w 12 4) (field w 8 4))
        = field w 64 64 ++ field w 32 32 ++ field w 24 8 ++ field w 16 8 ++ field w 12 4 ++ field w 8 4 ++
            field w 4 4 ++ field w 0 4 := by
          rw [zero 64 64 (by decide), zero 24 8 (by decide), zero 4 4 (by decide), hopcode 3#4 hop, encode]
      _ = w := by simp (disch := decide) only [field_append_field]; exact field_all w
  case h_4 hop =>
    calc encode (.moveCursor (field w 32 16)) = field w 48 80 ++ field w 32 16 ++ field w 4 28 ++ field w 0 4 := by
          rw [zero 48 80 (by decide), zero 4 28 (by decide), hopcode 4#4 hop, encode]
      _ = w := by simp (disch := decide) only [field_append_field]; exact field_all w
  case h_5 hop =>
    calc encode (.writeString (field w 64 32) (field w 32 32) (field w 12 4) (field w 8 4))
        = field w 96 32 ++ field w 64 32 ++ field w 32 32 ++ field w 16 16 ++ field w 12 4 ++ field w 8 4 ++
            field w 4 4 ++ field w 0 4 := by
          rw [zero 96 32 (by decide), zero 16 16 (by decide), zero 4 4 (by decide), hopcode 5#4 hop, encode]
      _ = w := by simp (disch := decide) only [field_append_field]; exact field_all w
  case h_6 hop =>
    calc encode .scroll = field w 4 124 ++ field w 0 4 := by rw [zero 4 124 (by decide), hopcode 6#4 hop]; rfl
      _ = w := (field_append_field rfl).trans (field_all w)
  case h_7 hop =>
    calc encode (.clearLine (field w 32 32)) = field w 64 64 ++ field w 32 32 ++ field w 4 28 ++ field w 0 4 := by
          rw [zero 64 64 (by decide), zero 4 28 (by decide), hopcode 7#4 hop, encode]
      _ = w := by simp (disch := decide) only [field_append_field]; exact field_all w
  case h_8 hop =>
    calc encode (.decode (field w 4 3)) = field w 7 121 ++ field w 4 3 ++ field w 0 4 := by
          rw [zero 7 121 (by decide), hopcode 8#4 hop, encode]
      _ = w := by simp (disch := decide) only [field_append_field]; exact field_all w

/-- Settles O2: a word decodes where it has operands and no reserved bit, which is where the encoder gives it back. -/
theorem encodeOfDecodeIsTheWord : Obligations.EncodeOfDecodeIsTheWord := by
  intro w i h
  obtain ⟨hi, hreserved⟩ := decodeWord_eq_ok.mp h
  exact encode_of_operands hi hreserved

/-! ## The opcode table -/

/-- Every row's mask covers the opcode, and its match carries the row's number there. -/
theorem opcode_tableRow {k : Nat} {row : CommandWord × CommandWord} (h : Machine.tableRow k = some row) :
    (opcode row.1).toNat = k ∧ opcode row.2 = BitVec.allOnes 4 := by
  unfold Machine.tableRow at h
  split at h <;> cases h <;> decide

theorem opcode_of_match {w : CommandWord} {k : Nat} {row : CommandWord × CommandWord}
    (hrow : Machine.tableRow k = some row) (h : w &&& row.2 = row.1) : (opcode w).toNat = k := by
  obtain ⟨hmatch, hmask⟩ := opcode_tableRow hrow
  have hop : opcode (w &&& row.2) = opcode w := by
    rw [opcode, field_and, ← opcode, ← opcode, hmask, BitVec.and_allOnes]
  rw [← hop, h, hmatch]

/-- No reserved bit lies in the opcode (R88). -/
theorem opcode_reservedMask (i : Instr) : opcode (reservedMask i) = 0#4 := by
  cases i <;> simp only [reservedMask] <;> decide

/-- A word with a match's opcode matches under a mask of the opcode and the reserved bits exactly when no reserved bit
is set. -/
theorem match_iff_reserved {w mask v reserved : CommandWord} (hop : opcode w = opcode v)
    (hmask : mask = reserved ||| 0xF#128) (hlow : opcode reserved = 0#4) (hv : field v 4 124 = 0#124) :
    w &&& mask = v ↔ w &&& reserved = 0#128 := by
  subst hmask
  have hor : ∀ lo n, field (reserved ||| 0xF#128) lo n = field reserved lo n ||| field 0xF#128 lo n :=
    fun lo n => BitVec.extractLsb'_or
  have hrest : field 0xF#128 4 124 = 0#124 := by decide
  have hall : field 0xF#128 0 4 = BitVec.allOnes 4 := by decide
  simp only [eq_iff_opcode_and_rest, opcode, field_and, field_zero, hor, hrest, hall] at hop hlow hv ⊢
  simp only [hop, hlow, hv, BitVec.zero_or, BitVec.or_zero, BitVec.and_allOnes, BitVec.and_zero, true_and]

/-- A word whose opcode has a row of the table names a command, whose reserved bits are the rest of the row's mask. -/
theorem operands_of_tableRow {w : CommandWord} {k : Nat} {row : CommandWord × CommandWord}
    (hrow : Machine.tableRow k = some row) (hk : (opcode w).toNat = k) :
    ∃ i, operands w = some i ∧ (w &&& row.2 = row.1 ↔ w &&& reservedMask i = 0#128) := by
  have hop : opcode w = opcode row.1 := BitVec.eq_of_toNat_eq (hk.trans (opcode_tableRow hrow).1.symm)
  unfold Machine.tableRow at hrow
  split at hrow <;> cases hrow <;>
    exact ⟨_, by rw [operands, hk]; rfl, match_iff_reserved hop (by simp only [reservedMask]; decide)
      (opcode_reservedMask _) (by decide)⟩

/-- Settles O3: a match fixes the opcode, and with it the command whose reserved bits the mask covers; the command's
own word is the word itself. -/
theorem opcodeTableDecidesDecoding : Obligations.OpcodeTableDecidesDecoding := by
  intro w k row hrow
  constructor
  · intro hmatch
    have hk := opcode_of_match hrow hmatch
    obtain ⟨i, hi, hiff⟩ := operands_of_tableRow hrow hk
    have hreserved := hiff.mp hmatch
    exact ⟨i, decodeWord_eq_ok.mpr ⟨hi, hreserved⟩, by rw [encode_of_operands hi hreserved, hk]⟩
  · rintro ⟨i, hdecode, hk⟩
    obtain ⟨hi, hreserved⟩ := decodeWord_eq_ok.mp hdecode
    rw [encode_of_operands hi hreserved] at hk
    obtain ⟨j, hj, hiff⟩ := operands_of_tableRow hrow hk
    obtain rfl : i = j := Option.some.inj (hi.symm.trans hj)
    exact hiff.mpr hreserved

/-! ## The decode procedure (R89) -/

theorem operands_eq_none_iff {w : CommandWord} :
    operands w = none ↔ (opcode w).toNat = 0 ∨ 9 ≤ (opcode w).toNat := by
  unfold operands
  split <;> simp only [reduceCtorEq, false_iff, true_iff, imp_false] at * <;> omega

theorem decodeWord_eq_illegalCommand {w : CommandWord} :
    decodeWord w = .error .illegalCommand ↔ operands w = none := by
  unfold decodeWord
  cases operands w with
  | none => simp
  | some i => by_cases hz : w &&& reservedMask i = 0#128 <;> simp [hz]

theorem decodeWord_eq_reservedBits {w : CommandWord} :
    decodeWord w = .error .reservedBits ↔ ∃ i, operands w = some i ∧ w &&& reservedMask i ≠ 0#128 := by
  unfold decodeWord
  cases operands w with
  | none => simp
  | some i => by_cases hz : w &&& reservedMask i = 0#128 <;> simp [hz]

/-- Settles O4: a word without operands is illegal; one with operands has a reserved bit set or decodes. -/
theorem decodingOrderIsOpcodeThenReserved : Obligations.DecodingOrderIsOpcodeThenReserved := by
  intro w
  refine ⟨?_, decodeWord_eq_reservedBits.symm, ?_⟩
  · rw [decodeWord_eq_illegalCommand, operands_eq_none_iff]
  · rw [decodeWord_eq_illegalCommand, decodeWord_eq_reservedBits]
    cases hi : operands w with
    | none => exact .inl rfl
    | some i =>
      by_cases hz : w &&& reservedMask i = 0#128
      · exact .inr (.inr ⟨i, decodeWord_eq_ok.mpr ⟨hi, hz⟩⟩)
      · exact .inr (.inl ⟨i, rfl, hz⟩)

/-- Settles O5: each word decodes by evaluation. -/
theorem specWordsDecodeAsWritten : Obligations.SpecWordsDecodeAsWritten := by
  unfold Obligations.SpecWordsDecodeAsWritten
  decide

end Sys2Proof
end

section
/-! What a command can do to memory, to the trace and to the registers, by its unit (00_scope.md, the two units;
20_memory.md R61): the layer that the statements over all commands rest on. -/

namespace Sys2Proof.Machine

open Sys2Proof.Config

/-- The encoder unit's commands; every other command is the console unit's. -/
def EncoderCommand : Instr → Prop
  | .encode .. | .install | .decode _ => True
  | _ => False

section
variable {i : Instr} {s t : State}

/-- What holds of the old state and of a fault, and what the command's effect establishes, holds after the command. -/
theorem exec_keeps {P : State → Prop} (h : exec i s = .next t) (hold : P s) (hraise : ∀ c, P (raise c (encode i) s))
    (heffect : Effect i s t → P t) : P t := by
  obtain ⟨-, rfl⟩ | ⟨-, ⟨c, rfl⟩ | he⟩ := exec_cases h
  · exact hold
  · exact hraise c
  · exact heffect he

/-! ## The core-owned regions (R7) -/

theorem not_inTable_of_inPointer {p : Params} (ha : p.Admitted) {x : Nat} (h : p.InPointer x) : ¬ p.InTable x := by
  obtain ⟨-, -, -, hapart, -⟩ := ha
  simp only [Apart, Params.InPointer, Params.InTable, gdtBytes, ptrBytes] at *
  omega

theorem not_inFramebuffer_of_inTable {p : Params} (ha : p.Admitted) {x : Nat} (h : p.InTable x) :
    ¬ p.InFramebuffer x := by
  obtain ⟨-, -, -, -, hapart, -⟩ := ha
  simp only [Apart, Params.InFramebuffer, Params.InTable, gdtBytes, fbBase] at *
  omega

theorem not_inFramebuffer_of_inPointer {p : Params} (ha : p.Admitted) {x : Nat} (h : p.InPointer x) :
    ¬ p.InFramebuffer x := by
  obtain ⟨-, -, -, -, -, hapart, -⟩ := ha
  simp only [Apart, Params.InFramebuffer, Params.InPointer, ptrBytes, fbBase] at *
  omega

/-! ## Bytes -/

/-- The encoder unit writes the table and the pointer record only. -/
theorem byteAt_effect_of_encoder (ha : s.cfg.Admitted) (hi : EncoderCommand i) (h : Effect i s t) {x : Nat}
    (htable : ¬ s.cfg.InTable x) (hpointer : ¬ s.cfg.InPointer x) : byteAt t x = byteAt s x := by
  cases i with
  | encode idx base limit access flags =>
    obtain ⟨hidx, -, rfl⟩ := h
    rw [byteAt_encodeEntry, if_neg]
    simp only [entryAddress, descBytes, Params.InTable, gdtBytes, gdtEntries] at *
    omega
  | install =>
    obtain ⟨-, rfl⟩ := h
    rw [byteAt_requestLoad, byteAt_writeTables ha, if_neg htable, if_neg hpointer]
  | decode idx =>
    obtain ⟨-, rfl⟩ := h
    rfl
  | writeCell | moveCursor | writeString | scroll | clearLine => exact hi.elim

/-- The console unit writes the framebuffer only. -/
theorem byteAt_effect_of_console (hs : PassReady s) (hi : ¬ EncoderCommand i) (h : Effect i s t) {x : Nat}
    (hx : ¬ s.cfg.InFramebuffer x) : byteAt t x = byteAt s x := by
  have hfits := admitted_gridFits hs.1
  cases i with
  | encode | install | decode => exact absurd trivial hi
  | writeCell off ch fg bg =>
    obtain ⟨hoff, rfl⟩ := h
    rw [byteAt_putCell, if_neg]
    simp only [Params.InFramebuffer, fbBase] at *
    omega
  | moveCursor pos =>
    obtain rfl := h
    rw [byteAt_cursorTo]
  | writeString buf len fg bg =>
    obtain ⟨bs, -, rfl⟩ := h
    exact byteAt_stringPasses_of_outside hs fg bg bs hx
  | scroll =>
    obtain rfl := h
    rw [byteAt_scrollUp hs.1, if_neg]
    simp only [Params.InFramebuffer, fbBase, gridBytes] at *
    omega
  | clearLine row =>
    obtain ⟨hrow, rfl⟩ := h
    rw [byteAt_blankLine, if_neg]
    simp only [Params.InFramebuffer, fbBase, fbHeight, gridBytes] at *
    omega

/-- Once installed, no effect writes the table or the pointer record: ENCODE and INSTALL have none (R130). -/
theorem byteAt_effect_of_installed (hs : PassReady s) (hinst : s.installed = true) (h : Effect i s t) {x : Nat}
    (hx : s.cfg.InTable x ∨ s.cfg.InPointer x) : byteAt t x = byteAt s x := by
  have hfb : ¬ s.cfg.InFramebuffer x :=
    hx.elim (not_inFramebuffer_of_inTable hs.1) (not_inFramebuffer_of_inPointer hs.1)
  cases i with
  | encode idx base limit access flags =>
    obtain ⟨-, hopen, -⟩ := h
    simp [hinst] at hopen
  | install =>
    obtain ⟨hopen, -⟩ := h
    simp [hinst] at hopen
  | decode idx =>
    obtain ⟨-, rfl⟩ := h
    rfl
  | writeCell | moveCursor | writeString | scroll | clearLine => exact byteAt_effect_of_console hs id h hfb

/-! ## Registers -/

/-- The encoder unit leaves the position and the cursor controller. -/
theorem effect_of_encoder_registers (hi : EncoderCommand i) (h : Effect i s t) :
    t.row = s.row ∧ t.col = s.col ∧ t.crtcIndex = s.crtcIndex ∧ t.cursorHigh = s.cursorHigh ∧
    t.cursorLow = s.cursorLow := by
  cases i with
  | encode idx base limit access flags => obtain ⟨-, -, rfl⟩ := h; simp
  | install =>
    obtain ⟨-, rfl⟩ := h
    exact ⟨(requestLoad_row _).trans (writeTables_row s), (requestLoad_col _).trans (writeTables_col s),
      (requestLoad_crtcIndex _).trans (writeTables_crtcIndex s),
      (requestLoad_cursorHigh _).trans (writeTables_cursorHigh s),
      (requestLoad_cursorLow _).trans (writeTables_cursorLow s)⟩
  | decode idx => obtain ⟨-, rfl⟩ := h; simp
  | writeCell | moveCursor | writeString | scroll | clearLine => exact hi.elim

/-- The console unit leaves `INSTALLED` and `RESP`. -/
theorem effect_of_console_registers (hi : ¬ EncoderCommand i) (h : Effect i s t) :
    t.installed = s.installed ∧ t.resp = s.resp := by
  cases i with
  | encode | install | decode => exact absurd trivial hi
  | writeCell off ch fg bg => obtain ⟨-, rfl⟩ := h; simp
  | moveCursor pos => obtain rfl := h; simp
  | writeString buf len fg bg =>
    obtain ⟨bs, -, rfl⟩ := h
    obtain ⟨-, hinstalled, -, -, hresp, -⟩ := stringPasses_frame fg bg bs s
    exact ⟨hinstalled, hresp⟩
  | scroll => obtain rfl := h; simp
  | clearLine row => obtain ⟨-, rfl⟩ := h; simp

/-- Of all effects only INSTALL's changes `INSTALLED` (R23). -/
theorem effect_installed (h : Effect i s t) (hi : i ≠ .install) : t.installed = s.installed := by
  cases i with
  | encode idx base limit access flags => obtain ⟨-, -, rfl⟩ := h; simp
  | install => exact absurd rfl hi
  | decode idx => obtain ⟨-, rfl⟩ := h; simp
  | writeCell | moveCursor | writeString | scroll | clearLine => exact (effect_of_console_registers id h).1

/-- Every effect keeps the position on the grid (R29). -/
theorem effect_onGrid (hg : OnGrid s) (h : Effect i s t) : OnGrid t := by
  obtain ⟨-, -, -, hposition, -⟩ := effect_registers h
  by_cases hmoved : t.row ≠ s.row ∨ t.col ≠ s.col
  · obtain ⟨buf, len, fg, bg, rfl⟩ := hposition hmoved
    obtain ⟨bs, -, rfl⟩ := h
    exact stringPasses_onGrid hg fg bg bs
  · rw [not_or, not_not, not_not] at hmoved
    rw [OnGrid, hmoved.1, hmoved.2]
    exact hg

/-! ## The trace and the cursor controller (R30, R32) -/

theorem replay_append (es fs : List Event) (c : Byte × Byte × Byte) :
    replay (es ++ fs) c = replay fs (replay es c) := by
  induction es generalizing c with
  | nil => rfl
  | cons e es ih => cases e <;> exact ih _

/-- From `s` to `t` the trace gains events which the core may emit and none of which loads a table, and the cursor
controller follows them. -/
def Emits (s t : State) : Prop :=
  ∃ new, t.trace = s.trace ++ new ∧ (∀ e ∈ new, e.isTableLoad = false ∧ e.Proper s.cfg) ∧
    (t.crtcIndex, t.cursorHigh, t.cursorLow) = replay new (s.crtcIndex, s.cursorHigh, s.cursorLow)

theorem Emits.of_unchanged (htrace : t.trace = s.trace) (hindex : t.crtcIndex = s.crtcIndex)
    (hhigh : t.cursorHigh = s.cursorHigh) (hlow : t.cursorLow = s.cursorLow) : Emits s t :=
  ⟨[], by rw [htrace, List.append_nil], by simp, by rw [hindex, hhigh, hlow, replay]⟩

theorem Emits.trans {u : State} (h : Emits s t) (hcfg : t.cfg = s.cfg) (h' : Emits t u) : Emits s u := by
  obtain ⟨new, htrace, hproper, hreplay⟩ := h
  obtain ⟨new', htrace', hproper', hreplay'⟩ := h'
  refine ⟨new ++ new', by rw [htrace', htrace, List.append_assoc], fun e he => ?_, ?_⟩
  · obtain he | he := List.mem_append.mp he
    · exact hproper e he
    · exact hcfg ▸ hproper' e he
  · rw [hreplay', hreplay, replay_append]

/-- A write cell emits a discard of an offset outside the framebuffer, or nothing (R151). -/
theorem emits_putCell (off : Word32) (ch : Byte) (fg bg : BitVec 4) (s : State) : Emits s (putCell off ch fg bg s) := by
  by_cases hoff : off.toNat < s.cfg.fbSize.toNat
  · rw [putCell_of_inside hoff]
    exact .of_unchanged rfl rfl rfl rfl
  · rw [putCell_of_outside (by omega)]
    exact ⟨[.cellDiscard off], rfl, by simp [Event.isTableLoad, Event.Proper]; omega, rfl⟩

/-- `MoveCursor` emits its four port writes (R153). -/
theorem emits_cursorTo (pos : BitVec 16) (s : State) : Emits s (cursorTo pos s) :=
  ⟨_, cursorTo_trace s pos, by simp [Event.isTableLoad, Event.Proper], by
    simp [replay, cursorCmdPort, cursorDataPort, cursorHighCmd, cursorLowCmd]⟩

theorem emits_printPass (fg bg : BitVec 4) (b : Byte) (s : State) : Emits s (printPass fg bg b s) :=
  (((emits_putCell _ b fg bg s).trans (putCell_cfg ..) (emits_cursorTo _ _)).trans (by simp)
    (.of_unchanged (advance_trace _) (advance_crtcIndex _) (advance_cursorHigh _) (advance_cursorLow _))).trans
    (by simp)
    (.of_unchanged (overflowCheck_trace _) (overflowCheck_crtcIndex _) (overflowCheck_cursorHigh _)
      (overflowCheck_cursorLow _))

theorem emits_breakPass (s : State) : Emits s (breakPass s) :=
  .of_unchanged (by simp) (by simp) (by simp) (by simp)

theorem emits_stringPasses (fg bg : BitVec 4) (bs : List Byte) (s : State) : Emits s (stringPasses fg bg bs s) := by
  refine (stringPasses_keeps (P := fun t => t.cfg = s.cfg ∧ Emits s t) ?_ ?_ bs s
    ⟨rfl, .of_unchanged rfl rfl rfl rfl⟩).2
  · rintro t ⟨hcfg, ht⟩
    exact ⟨(breakPass_cfg t).trans hcfg, ht.trans hcfg (emits_breakPass t)⟩
  · rintro b t - ⟨hcfg, ht⟩
    exact ⟨(printPass_cfg t fg bg b).trans hcfg, ht.trans hcfg (emits_printPass fg bg b t)⟩

/-- Every command but INSTALL emits such events only. -/
theorem effect_emits (h : Effect i s t) (hi : i ≠ .install) : Emits s t := by
  cases i with
  | encode idx base limit access flags =>
    obtain ⟨-, -, rfl⟩ := h
    exact .of_unchanged rfl rfl rfl rfl
  | install => exact absurd rfl hi
  | writeCell off ch fg bg =>
    obtain ⟨-, rfl⟩ := h
    exact emits_putCell off ch fg bg s
  | moveCursor pos =>
    obtain rfl := h
    exact emits_cursorTo pos s
  | writeString buf len fg bg =>
    obtain ⟨bs, -, rfl⟩ := h
    exact emits_stringPasses fg bg bs s
  | scroll =>
    obtain rfl := h
    exact .of_unchanged rfl rfl rfl rfl
  | clearLine row =>
    obtain ⟨-, rfl⟩ := h
    exact .of_unchanged rfl rfl rfl rfl
  | decode idx =>
    obtain ⟨-, rfl⟩ := h
    exact .of_unchanged rfl rfl rfl rfl

/-! ## The canonical form of memory (R52) -/

/-- An entry of an admitted table lies in the address space. -/
theorem encodeEntry_wf (ha : s.cfg.Admitted) (h : Memory.wf s.mem) {n : Nat} (hn : n < gdtEntries) (d : Descriptor) :
    Memory.wf (encodeEntry n d s).mem := by
  obtain ⟨hspace, -⟩ := ha
  refine memWrite_wf h ?_
  simp only [entryAddress, descBytes, descriptorBytes_length, gdtBytes, gdtEntries, addrSpace] at *
  omega

theorem writeTables_wf (ha : s.cfg.Admitted) (h : Memory.wf s.mem) : Memory.wf (writeTables s).mem := by
  have hpointer : Memory.wf (storeBytes s s.cfg.ptrBase.toNat (pointerRecord s.cfg)).mem := memWrite_wf h ha.2.1
  have h0 := encodeEntry_wf (by exact ha) hpointer (by decide : 0 < gdtEntries) nullDescriptor
  have h1 := encodeEntry_wf (by exact ha) h0 (by decide : 1 < gdtEntries) (installedDescriptor s.cfg .kernelCode)
  have h2 := encodeEntry_wf (by exact ha) h1 (by decide : 2 < gdtEntries) (installedDescriptor s.cfg .kernelData)
  have h3 := encodeEntry_wf (by exact ha) h2 (by decide : 3 < gdtEntries) (installedDescriptor s.cfg .userCode)
  exact encodeEntry_wf (by exact ha) h3 (by decide : 4 < gdtEntries) (installedDescriptor s.cfg .userData)

theorem effect_wf (hs : PassReady s) (hwf : Memory.wf s.mem) (h : Effect i s t) : Memory.wf t.mem := by
  cases i with
  | encode idx base limit access flags =>
    obtain ⟨hidx, -, rfl⟩ := h
    exact encodeEntry_wf hs.1 hwf hidx _
  | install =>
    obtain ⟨-, rfl⟩ := h
    exact writeTables_wf hs.1 hwf
  | writeCell off ch fg bg =>
    obtain ⟨hoff, rfl⟩ := h
    exact putCell_wf hs.1 hwf hoff ch fg bg
  | moveCursor pos =>
    obtain rfl := h
    rwa [cursorTo_mem]
  | writeString buf len fg bg =>
    obtain ⟨bs, -, rfl⟩ := h
    exact stringPasses_wf hs hwf fg bg bs
  | scroll =>
    obtain rfl := h
    exact memWrite_wf hwf (by rw [coreBytes_length]; decide)
  | clearLine row =>
    obtain ⟨hrow, rfl⟩ := h
    refine memWrite_wf hwf ?_
    simp only [blankRow_length, fbBase, rowBytes, fbHeight, addrSpace] at *
    omega
  | decode idx =>
    obtain ⟨-, rfl⟩ := h
    exact hwf

end

end Sys2Proof.Machine
end

section
/-! The invariant of the machine (10_state.md R29, 40_descriptor_table.md R130 to R132, 60_exceptions.md R202): each
kind of move keeps it, and every launch starts in it. -/

namespace Sys2Proof.Machine

open Sys2Proof.Config

section
variable {i : Instr} {s t : State}

/-! ## The processor's move (R64) -/

/-- The processor's move on memory: it sets bit 0 of byte 5 of the entry (R64). -/
def setAccessed (e : LoadedEntry) (s : State) : State :=
  storeBytes s (entryAddress s.cfg e.index + 5) [coreByte s (entryAddress s.cfg e.index + 5) ||| 1#8]

/-- The accessed bit is no bit that only the core writes. -/
theorem or_accessed_and_mask (b : Byte) : (b ||| 1#8) &&& 0xFE#8 = b &&& 0xFE#8 := by
  revert b; decide

/-- The address of an entry's accessed bit, as an offset in the table. -/
theorem accessed_address (p : Params) (e : LoadedEntry) :
    entryAddress p e.index + 5 = p.tableBase.toNat + (8 * e.index + 5) := by
  simp only [entryAddress, descBytes, Nat.add_assoc]

theorem inTable_accessed (p : Params) (e : LoadedEntry) : p.InTable (entryAddress p e.index + 5) := by
  have hindex : e.index < gdtEntries := by cases e <;> decide
  simp only [Params.InTable, accessed_address, gdtBytes, gdtEntries] at *
  omega

theorem byteAt_setAccessed_of_ne (e : LoadedEntry) {x : Nat} (hx : x ≠ entryAddress s.cfg e.index + 5) :
    byteAt (setAccessed e s) x = byteAt s x := by
  rw [setAccessed, byteAt_storeBytes, if_neg (by simp only [List.length_singleton]; omega)]

theorem byteAt_setAccessed_of_not_inTable (e : LoadedEntry) {x : Nat} (hx : ¬ s.cfg.InTable x) :
    byteAt (setAccessed e s) x = byteAt s x :=
  byteAt_setAccessed_of_ne e fun heq => hx (heq ▸ inTable_accessed s.cfg e)

/-- The processor's move changes no bit that only the core writes. -/
theorem coreByte_setAccessed_and_mask (e : LoadedEntry) (s : State) (j : Nat) :
    coreByte (setAccessed e s) (s.cfg.tableBase.toNat + j) &&& tableMask j =
      coreByte s (s.cfg.tableBase.toNat + j) &&& tableMask j := by
  rw [setAccessed, accessed_address, coreByte_storeBytes]
  by_cases hj : j = 8 * e.index + 5
  · have hmask : tableMask j = 0xFE#8 := by rw [hj]; cases e <;> rfl
    subst hj
    rw [if_pos (by simp), hmask, Nat.sub_self]
    exact or_accessed_and_mask _
  · rw [if_neg (by simp only [List.length_singleton]; omega)]

/-! ## The installed table (R130) -/

/-- Core-owned bytes that read the same are the same to the core. -/
theorem coreByte_eq_of_byteAt_eq (hcfg : t.cfg = s.cfg) {x : Nat} (hx : s.cfg.Owned x) (h : byteAt t x = byteAt s x) :
    coreByte t x = coreByte s x := by
  rw [byteAt_of_owned hx, byteAt_of_owned (hcfg ▸ hx)] at h
  exact Option.some.inj h

/-- The installed table and pointer record stand where memory holds them. -/
theorem InstalledStands.of_reads {p : Params} (hcfg : s.cfg = p)
    (htable : ReadsAs s p.tableBase.toNat (installedTable p)) (hpointer : ReadsAs s p.ptrBase.toNat (pointerRecord p)) :
    InstalledStands s := by
  subst hcfg
  refine ⟨fun j hj b hb => ?_, hpointer⟩
  have hin : s.cfg.InTable (s.cfg.tableBase.toNat + j) := ⟨by omega, by omega⟩
  have hread := htable j hj
  rw [byteAt_of_owned (.inl hin), hb] at hread
  rw [Option.some.inj hread]

/-- They stand on while the bits that only the core writes do. -/
theorem InstalledStands.of_masked (h : InstalledStands s) (hcfg : t.cfg = s.cfg)
    (htable : ∀ j < gdtBytes, coreByte t (s.cfg.tableBase.toNat + j) &&& tableMask j =
      coreByte s (s.cfg.tableBase.toNat + j) &&& tableMask j)
    (hpointer : ∀ x, s.cfg.InPointer x → byteAt t x = byteAt s x) : InstalledStands t := by
  rw [InstalledStands, hcfg]
  exact ⟨fun j hj b hb => (htable j hj).trans (h.1 j hj b hb),
    fun j hj => (hpointer _ ⟨by omega, Nat.add_lt_add_left hj _⟩).trans (h.2 j hj)⟩

theorem InstalledStands.of_bytes (h : InstalledStands s) (hcfg : t.cfg = s.cfg)
    (hbytes : ∀ x, s.cfg.InTable x ∨ s.cfg.InPointer x → byteAt t x = byteAt s x) : InstalledStands t := by
  refine h.of_masked hcfg (fun j hj => ?_) fun x hx => hbytes x (.inr hx)
  have hin : s.cfg.InTable (s.cfg.tableBase.toNat + j) := ⟨by omega, by omega⟩
  rw [coreByte_eq_of_byteAt_eq hcfg (.inl hin) (hbytes _ (.inl hin))]

theorem installedStands_install (ha : s.cfg.Admitted) : InstalledStands (requestLoad (writeTables s)) :=
  .of_reads ((requestLoad_cfg _).trans (writeTables_cfg s))
    (by simpa only [ReadsAs, byteAt_requestLoad] using readsAs_table_writeTables ha)
    (by simpa only [ReadsAs, byteAt_requestLoad] using readsAs_pointer_writeTables ha)

/-! ## Each kind of move keeps the invariant -/

/-- A move of the environment changes memory, the pending moves and what the host last read. -/
theorem Inv.with_memory (h : Inv s) {m : Memory} {inputs : List Input} {hostRead : HostRead} (hmem : Memory.wf m)
    (htable : s.installed = true → InstalledStands { s with mem := m, inputs := inputs, hostRead := hostRead }) :
    Inv { s with mem := m, inputs := inputs, hostRead := hostRead } where
  config := h.config
  row := h.row
  col := h.col
  mem := hmem
  code := h.code
  line := h.line
  loads := h.loads
  table := htable
  events := h.events

/-- The pending moves and what the host last read are no part of the invariant. -/
theorem Inv.with_host (h : Inv s) (inputs : List Input) (hostRead : HostRead) :
    Inv { s with inputs := inputs, hostRead := hostRead } :=
  h.with_memory h.mem fun hinst => (h.table hinst).of_bytes rfl fun _ _ => rfl

theorem Cause.code_le (c : Cause) : c.code.toNat ≤ 8 := by cases c <;> decide

theorem Cause.code_ne_zero (c : Cause) : c.code ≠ 0#4 := by cases c <;> decide

/-- A fault is kept with its line (R202). -/
theorem Inv.raise (h : Inv s) (c : Cause) (w : CommandWord) : Inv (raise c w s) where
  config := h.config
  row := h.row
  col := h.col
  mem := h.mem
  code := c.code_le
  line := iff_of_false c.code_ne_zero (Option.some_ne_none w)
  loads := h.loads
  table hinst := (h.table hinst).of_bytes rfl fun _ _ => rfl
  events := h.events

/-- A byte of the host lies outside the core-owned regions (R53). -/
theorem Inv.hostByte (h : Inv s) {a : Word32} (ha : ¬ s.cfg.Owned a.toNat) (b : Byte) :
    Inv (storeBytes s a.toNat [b]) := by
  refine h.with_memory (memWrite_wf h.mem a.isLt) fun hinst => (h.table hinst).of_bytes rfl fun x hx => ?_
  have hne : x ≠ a.toNat := fun heq => ha (heq ▸ hx.elim .inl (.inr ∘ .inl))
  exact sameOutside_storeBytes s a.toNat [b] x (by simp only [List.length_singleton]; omega)

/-- The processor's move changes an accessed bit only. -/
theorem Inv.setAccessed (h : Inv s) (e : LoadedEntry) : Inv (setAccessed e s) := by
  have hin := inTable_accessed s.cfg e
  refine h.with_memory (memWrite_wf h.mem ?_) fun hinst => (h.table hinst).of_masked rfl
    (fun j _ => coreByte_setAccessed_and_mask e s j) fun x hx =>
      byteAt_setAccessed_of_not_inTable e (not_inTable_of_inPointer h.config hx)
  exact Nat.succ_le_of_lt (hin.2.trans_le h.config.1)

theorem Inv.passReady (h : Inv s) : PassReady s := ⟨h.config, h.row, h.col⟩

/-- INSTALL's effect: the first table load, of the table it has just written (R126, R131). -/
theorem Inv.install (h : Inv s) (hopen : s.installed = false) : Inv (requestLoad (writeTables s)) := by
  have hgrid := effect_onGrid ⟨h.row, h.col⟩ (i := .install) ⟨hopen, rfl⟩
  have hwf := writeTables_wf h.config h.mem
  have hstands := installedStands_install h.config
  have hloads := h.loads
  rw [requestLoad_writeTables h.config] at hgrid hstands ⊢
  exact {
    config := h.config
    row := hgrid.1
    col := hgrid.2
    mem := hwf
    code := h.code
    line := h.line
    loads := by rw [List.filter_append, List.length_append, hloads, hopen]; rfl
    table := fun _ => hstands
    events := fun e he => by
      obtain he | he := List.mem_append.mp he
      · exact h.events e he
      · rw [List.mem_singleton.mp he]
        exact ⟨rfl, rfl⟩ }

/-- Every other effect loads no table, and writes none once one is installed. -/
theorem Inv.effect (h : Inv s) (hi : i ≠ .install) (he : Effect i s t) : Inv t := by
  obtain ⟨hcfg, hfault, hline, -⟩ := effect_frame he
  obtain ⟨hrow, hcol⟩ := effect_onGrid ⟨h.row, h.col⟩ he
  obtain ⟨new, htrace, hproper, -⟩ := effect_emits he hi
  have hinst := effect_installed he hi
  have hnoload : new.filter Event.isTableLoad = [] := List.filter_eq_nil_iff.mpr fun e he => by simp [(hproper e he).1]
  exact {
    config := hcfg ▸ h.config
    row := hrow
    col := hcol
    mem := effect_wf h.passReady h.mem he
    code := hfault ▸ h.code
    line := by rw [hfault, hline]; exact h.line
    loads := by rw [htrace, hinst, List.filter_append, hnoload, List.append_nil]; exact h.loads
    table := fun ht => by
      rw [hinst] at ht
      exact (h.table ht).of_bytes hcfg fun x hx => byteAt_effect_of_installed h.passReady ht he hx
    events := fun e hmem => by
      rw [htrace] at hmem
      rw [hcfg]
      exact (List.mem_append.mp hmem).elim (h.events e) fun hnew => (hproper e hnew).2 }

/-- Every command keeps the invariant. -/
theorem Inv.exec (h : Inv s) (he : exec i s = .next t) : Inv t := by
  refine exec_keeps he h (fun c => h.raise c _) fun heffect => ?_
  by_cases hi : i = .install
  · subst hi
    obtain ⟨hopen, rfl⟩ := heffect
    exact h.install hopen
  · exact h.effect hi heffect

end

/-- Settles O36: each kind of move keeps the invariant. -/
theorem stepKeepsTheInvariant : Obligations.StepKeepsTheInvariant := by
  intro s t h hstep
  have hrest := fun rest => h.with_host rest s.hostRead
  obtain ⟨-, ⟨-, rfl⟩ | ⟨bytes, rest, i, -, -, hexec⟩ | ⟨bytes, rest, r, -, -, hreject⟩ |
    ⟨a, b, rest, -, hfree, rfl⟩ | ⟨e, rest, -, -, rfl⟩ | ⟨rest, -, rfl⟩ | ⟨a, rest, -, rfl⟩⟩ := step_cases hstep
  · exact h
  · exact (hrest rest).exec hexec
  · obtain rfl | ⟨-, c, rfl⟩ := takeReject_cases hreject
    · exact hrest rest
    · exact (hrest rest).raise c _
  · exact (hrest rest).hostByte hfree b
  · exact (hrest rest).setAccessed e
  · exact h.with_host rest _
  · exact h.with_host rest _

/-! ## Launches (R240) -/

/-- The reset state of an admitted launch meets the invariant. -/
theorem Inv.resetState {l : Launch} (ha : l.params.Admitted) (hmem : Memory.wf l.mem) : Inv l.resetState := by
  obtain ⟨-, -, -, -, -, -, hrow, hcol, -⟩ := id ha
  exact {
    config := ha
    row := hrow
    col := hcol
    mem := hmem
    code := (by decide : (0#4).toNat ≤ 8)
    line := ⟨fun _ => rfl, fun _ => rfl⟩
    loads := rfl
    table := fun hinst => by cases hinst
    events := fun e he => by cases he }

theorem launch_of_admitted {l : Launch} (ha : l.params.Admitted) : State.launch l = some l.resetState := if_pos ha

theorem launch_of_not_admitted {l : Launch} (ha : ¬ l.params.Admitted) : State.launch l = none := if_neg ha

/-- Settles O37: a launch that has a state is admitted, and its state is the reset state. -/
theorem launchMeetsTheInvariant : Obligations.LaunchMeetsTheInvariant := by
  refine ⟨.resetState (l := Launch.ofVectors) (by decide) (by decide), fun l s hmem hlaunch => ?_⟩
  by_cases ha : l.params.Admitted
  · rw [launch_of_admitted ha] at hlaunch
    cases hlaunch
    exact .resetState ha hmem
  · rw [launch_of_not_admitted ha] at hlaunch
    cases hlaunch

/-- Settles O38: an admitted launch starts in its reset state, whose fields are the launch's. -/
theorem launchStateIsTheResetState : Obligations.LaunchStateIsTheResetState := by
  intro l
  refine ⟨launch_of_not_admitted, fun ha => ⟨l.resetState, launch_of_admitted ha, ?_⟩⟩
  simp [Launch.resetState]

end Sys2Proof.Machine
end

section
/-! What every command keeps (20_memory.md R61, 60_exceptions.md R201) and when a command completes. -/

namespace Sys2Proof.Machine

open Sys2Proof.Config

/-! ## Completion (R249) -/

theorem accept_completes {body : State → Result} (h : ∀ s, ∃ t, body s = .next t) (s : State) :
    ∃ t, accept s body = .next t := by
  unfold accept
  split
  · exact h s
  · exact ⟨s, rfl⟩

theorem ite_completes {c : Prop} [Decidable c] {r r' : Result} (h : ∃ t, r = .next t) (h' : ∃ t, r' = .next t) :
    ∃ t, (if c then r else r') = .next t := by
  split <;> assumption

/-- Settles O39: every branch of every meaning answers a next state. -/
theorem everyCommandCompletes : Obligations.EveryCommandCompletes := by
  intro i s
  cases i with
  | encode =>
    simp only [exec, execEncode]
    exact accept_completes (fun _ => ite_completes ⟨_, rfl⟩ (ite_completes ⟨_, rfl⟩ ⟨_, rfl⟩)) s
  | install =>
    simp only [exec, execInstall]
    exact accept_completes (fun _ => ite_completes ⟨_, rfl⟩ ⟨_, rfl⟩) s
  | writeCell =>
    simp only [exec, execWriteCell]
    exact accept_completes (fun _ => ite_completes ⟨_, rfl⟩ ⟨_, rfl⟩) s
  | moveCursor =>
    simp only [exec, execMoveCursor]
    exact accept_completes (fun _ => ⟨_, rfl⟩) s
  | writeString buf len fg bg =>
    simp only [exec, execWriteString]
    refine accept_completes (fun u => ?_) s
    cases admitBuffer u buf.toNat len.toNat with
    | none => exact ⟨_, rfl⟩
    | some bs => exact ⟨_, rfl⟩
  | scroll =>
    simp only [exec, execScroll]
    exact accept_completes (fun _ => ⟨_, rfl⟩) s
  | clearLine =>
    simp only [exec, execClearLine]
    exact accept_completes (fun _ => ite_completes ⟨_, rfl⟩ ⟨_, rfl⟩) s
  | decode =>
    simp only [exec, execDecode]
    exact accept_completes (fun _ => ite_completes ⟨_, rfl⟩ ⟨_, rfl⟩) s

/-- Settles O40: on a ready core each of these commands has its effect, which takes no fault. -/
theorem wellFormedCommandsDoNotFault : Obligations.WellFormedCommandsDoNotFault := by
  intro i s ha hready hwf hpre
  obtain ⟨t, heffect⟩ : ∃ t, Effect i s t := by
    cases i with
    | encode idx base limit access flags => exact ⟨_, of_decide_eq_true hwf, hpre, rfl⟩
    | install => exact ⟨_, hpre, rfl⟩
    | writeCell off ch fg bg => exact ⟨_, of_decide_eq_true hwf, rfl⟩
    | moveCursor pos => exact ⟨_, rfl⟩
    | writeString buf len fg bg =>
      obtain ⟨bs, hlen, hplaced⟩ := hpre
      exact ⟨_, bs, hlen ▸ admitBuffer_of_placed ha hplaced, rfl⟩
    | scroll => exact ⟨_, rfl⟩
    | clearLine row => exact ⟨_, of_decide_eq_true hwf, rfl⟩
    | decode idx => exact ⟨_, of_decide_eq_true hwf, rfl⟩
  obtain ⟨-, hfault, hline, -⟩ := effect_frame heffect
  exact ⟨t, exec_of_effect hready heffect, hfault.trans hready, hline⟩

/-- Settles O41: a ready core's fault is `raise` under the command's own word; an effect takes none. -/
theorem faultsArePrecise : Obligations.FaultsArePrecise := by
  intro i s t hready h hfault
  obtain ⟨hne, -⟩ | ⟨-, ⟨c, rfl⟩ | heffect⟩ := exec_cases h
  · exact absurd hready hne
  · rfl
  · obtain ⟨-, hsame, -⟩ := effect_frame heffect
    exact absurd (hsame.trans hready) hfault

/-! ## `INSTALLED` (R23) -/

/-- INSTALL on a ready core ends with `INSTALLED = 1`, by its effect or, at its fault, from before. -/
theorem installed_of_exec_install {s t : State} (hready : Ready s) (h : exec .install s = .next t) :
    t.installed = true := by
  by_cases hinst : s.installed = true
  · rw [exec_install_of_installed hready hinst] at h
    cases h
    exact hinst
  · rw [exec_of_effect (i := .install) hready ⟨by simpa using hinst, rfl⟩] at h
    cases h
    exact requestLoad_installed _

/-- Settles O43: INSTALL on a ready core sets it; every other command keeps it. -/
theorem installedIsSetByInstallOnly : Obligations.InstalledIsSetByInstallOnly := by
  intro i s t h
  by_cases hi : i = .install ∧ s.fault = 0#4
  · obtain ⟨rfl, hready⟩ := hi
    exact iff_of_true (installed_of_exec_install hready h) (.inr ⟨rfl, hready⟩)
  · have hsame : t.installed = s.installed := by
      obtain ⟨-, rfl⟩ | ⟨hready, ⟨c, rfl⟩ | heffect⟩ := exec_cases h
      · rfl
      · rfl
      · exact effect_installed heffect fun heq => hi ⟨heq, hready⟩
    rw [hsame, or_iff_left hi]

/-! ## Memory by region and unit (R31, R61, R130) -/

/-- Settles O18: no effect writes the table or the pointer record once they are installed. -/
theorem installedTableIsNeverMutated : Obligations.InstalledTableIsNeverMutated := by
  intro i s t ha hrow hcol hinst h
  refine ⟨(installedIsSetByInstallOnly i s t h).mpr (.inl hinst), fun a hin => ?_⟩
  exact exec_keeps (P := fun u => byteAt u a = byteAt s a) h rfl (fun _ => rfl) fun heffect =>
    byteAt_effect_of_installed ⟨ha, hrow, hcol⟩ hinst heffect hin

/-- Settles O45: each unit writes within its own regions. -/
theorem commandsWriteOnlyOwnedMemory : Obligations.CommandsWriteOnlyOwnedMemory := by
  intro i s t ha hrow hcol h a hfree
  simp only [Params.Owned, not_or] at hfree
  obtain ⟨htable, hpointer, hfb⟩ := hfree
  refine exec_keeps (P := fun u => byteAt u a = byteAt s a) h rfl (fun _ => rfl) fun heffect => ?_
  by_cases hi : EncoderCommand i
  · exact byteAt_effect_of_encoder ha hi heffect htable hpointer
  · exact byteAt_effect_of_console ⟨ha, hrow, hcol⟩ hi heffect hfb

/-- What an encoder command leaves of the console (R61). -/
def ConsoleKept (s t : State) : Prop :=
  t.row = s.row ∧ t.col = s.col ∧ t.crtcIndex = s.crtcIndex ∧ t.cursorHigh = s.cursorHigh ∧
  t.cursorLow = s.cursorLow ∧ ∀ a, s.cfg.InFramebuffer a → byteAt t a = byteAt s a

/-- What a console command leaves of the encoder (R61). -/
def EncoderKept (s t : State) : Prop :=
  t.installed = s.installed ∧ t.resp = s.resp ∧
  ∀ a, s.cfg.InTable a ∨ s.cfg.InPointer a → byteAt t a = byteAt s a

theorem consoleKept_of_encoder {i : Instr} {s t : State} (ha : s.cfg.Admitted) (hi : EncoderCommand i)
    (h : exec i s = .next t) : ConsoleKept s t := by
  refine exec_keeps h ⟨rfl, rfl, rfl, rfl, rfl, fun _ _ => rfl⟩ (fun _ => ⟨rfl, rfl, rfl, rfl, rfl, fun _ _ => rfl⟩)
    fun heffect => ?_
  obtain ⟨hrow, hcol, hindex, hhigh, hlow⟩ := effect_of_encoder_registers hi heffect
  exact ⟨hrow, hcol, hindex, hhigh, hlow, fun a hfb => byteAt_effect_of_encoder ha hi heffect
    (fun htable => not_inFramebuffer_of_inTable ha htable hfb)
    fun hpointer => not_inFramebuffer_of_inPointer ha hpointer hfb⟩

theorem encoderKept_of_console {i : Instr} {s t : State} (hs : PassReady s) (hi : ¬ EncoderCommand i)
    (h : exec i s = .next t) : EncoderKept s t := by
  refine exec_keeps h ⟨rfl, rfl, fun _ _ => rfl⟩ (fun _ => ⟨rfl, rfl, fun _ _ => rfl⟩) fun heffect => ?_
  obtain ⟨hinst, hresp⟩ := effect_of_console_registers hi heffect
  exact ⟨hinst, hresp, fun a hin => byteAt_effect_of_console hs hi heffect
    (hin.elim (not_inFramebuffer_of_inTable hs.1) (not_inFramebuffer_of_inPointer hs.1))⟩

/-- Settles O46: a command is the encoder's or the console's. -/
theorem unitsTouchDisjointResources : Obligations.UnitsTouchDisjointResources := by
  intro i s t ha hrow hcol h
  cases i with
  | encode | install | decode => exact consoleKept_of_encoder ha (by exact trivial) h
  | writeCell | moveCursor | writeString | scroll | clearLine => exact encoderKept_of_console ⟨ha, hrow, hcol⟩ id h

/-! ## The trace (R30, R32) -/

theorem requestLoad_trace (s : State) :
    ∃ size address, (requestLoad s).trace = s.trace ++ [.tableLoad size address] := ⟨_, _, rfl⟩

/-- Settles O47: INSTALL adds its request, which the controller does not see; every other effect emits what drives
it. -/
theorem traceGrowsAndDrivesTheCursor : Obligations.TraceGrowsAndDrivesTheCursor := by
  intro i s t h
  refine exec_keeps (P := fun u => ∃ new, u.trace = s.trace ++ new ∧
    (u.crtcIndex, u.cursorHigh, u.cursorLow) = replay new (s.crtcIndex, s.cursorHigh, s.cursorLow)) h
    ⟨[], by simp, rfl⟩ (fun _ => ⟨[], by simp, rfl⟩) fun heffect => ?_
  by_cases hi : i = .install
  · subst hi
    obtain ⟨-, -, hindex, hhigh, hlow⟩ := effect_of_encoder_registers (i := .install) trivial heffect
    obtain ⟨-, rfl⟩ := heffect
    obtain ⟨size, address, htrace⟩ := requestLoad_trace (writeTables s)
    exact ⟨[.tableLoad size address], by rw [htrace, writeTables_trace], by rw [hindex, hhigh, hlow]; rfl⟩
  · obtain ⟨new, htrace, -, hreplay⟩ := effect_emits heffect hi
    exact ⟨new, htrace, hreplay⟩

end Sys2Proof.Machine
end

section
/-! One step (20_memory.md R60, 30_encoding.md R89): a command, an undecodable word, a faulted core, and the moves of
the environment. -/

namespace Sys2Proof.Machine

open Sys2Proof.Config

section
variable {s : State} {rest : List Input}

/-! ## Commands -/

theorem step_of_command {bytes : List Byte} (ha : s.cfg.Admitted) (hin : s.inputs = .command bytes :: rest) :
    step s = stepCommand bytes { s with inputs := rest } := by
  simp only [step, if_pos ha, hin]

/-- A word that decodes to no command is, on a core that accepts one, its cause raised under the word itself (R88). -/
theorem stepCommand_transfer_of_error {w : CommandWord} {r : Reject} {c : Cause} (h : decodeWord w = .error r)
    (hc : rejectCause r = some c) (s : State) :
    stepCommand (transfer w) s = accept s (fun s => .next (raise c w s)) := by
  simp only [stepCommand, decodeBytes_transfer, h, ofNat_leNat_transfer, takeReject, hc]

/-- A faulted core takes no command (R201). -/
theorem exec_of_faulted (h : s.fault ≠ 0#4) (i : Instr) : exec i s = .next s := by
  cases i <;> simp only [exec, execEncode, execInstall, execWriteCell, execMoveCursor, execWriteString, execScroll,
    execClearLine, execDecode, accept_of_faulted h]

/-- A faulted core does not see a word at all (R201, E9). -/
theorem stepCommand_transfer_of_faulted (h : s.fault ≠ 0#4) (w : CommandWord) :
    stepCommand (transfer w) s = .next s := by
  obtain hillegal | hreserved | ⟨i, hi⟩ := (decodingOrderIsOpcodeThenReserved w).2.2
  · rw [stepCommand_transfer_of_error hillegal rfl, accept_of_faulted h]
  · rw [stepCommand_transfer_of_error hreserved rfl, accept_of_faulted h]
  · simp only [stepCommand, decodeBytes_transfer, hi, exec_of_faulted h]

end

/-- Settles O6: the step is the command's meaning once the move is off the queue. -/
theorem stepRunsTheDecodedCommand : Obligations.StepRunsTheDecodedCommand := by
  intro s bytes rest i ha hin hdecode
  rw [step_of_command ha hin, stepCommand, hdecode]

/-- Settles O7: the word is rejected by its opcode or by a reserved bit, and the reject is raised. -/
theorem undecodableWordsFaultWithoutEffect : Obligations.UndecodableWordsFaultWithoutEffect := by
  intro s w rest ha hready hin
  obtain ⟨hillegal, hreserved, -⟩ := decodingOrderIsOpcodeThenReserved w
  rw [step_of_command ha hin]
  refine ⟨fun hop => ?_, fun i hi hbit => ?_⟩
  · rw [stepCommand_transfer_of_error (hillegal.mp hop) rfl, accept_of_ready (by exact hready)]
    rfl
  · rw [stepCommand_transfer_of_error (hreserved.mp ⟨i, hi, hbit⟩) rfl, accept_of_ready (by exact hready)]
    rfl

/-- Settles O8: neither a command nor any word is taken. -/
theorem faultedCoreAcceptsNoCommand : Obligations.FaultedCoreAcceptsNoCommand := by
  intro s hfault
  refine ⟨fun i => exec_of_faulted hfault i, fun w rest ha hin => ?_⟩
  rw [step_of_command ha hin]
  exact stepCommand_transfer_of_faulted (s := { s with inputs := rest }) hfault w

/-! ## The environment's moves -/

/-- Settles O9: each move by the operation it is. -/
theorem hostMovesBetweenCommands : Obligations.HostMovesBetweenCommands := by
  intro s rest
  refine ⟨fun ha => if_neg ha, fun ha => ⟨fun hin => ?_, fun a b hin => ?_, fun hin => ?_, fun a hin => ?_⟩⟩
  · simp only [step, if_pos ha, hin]
  · have hstep : step s = hostPlace a b { s with inputs := rest } := by simp only [step, if_pos ha, hin]
    rw [hstep, hostPlace]
    refine ⟨fun howned => if_pos howned, fun hfree => ⟨_, if_neg hfree, ?_, ?_, rfl⟩⟩
    · simp [byteAt_storeBytes]
    · exact sameOutside_storeBytes { s with inputs := rest } a.toNat [b]
  · have hstep : step s = hostReadResp { s with inputs := rest } := by simp only [step, if_pos ha, hin]
    rw [hstep, hostReadResp, readResp]
    refine ⟨fun hresp => ?_, fun d hresp => ?_⟩ <;> simp only [hresp]
  · have hstep : step s = .next { s with inputs := rest, hostRead := .memory (byteAt s a.toNat) } := by
      simp only [step, if_pos ha, hin]
      rfl
    exact ⟨hstep, fun howned => by rw [hstep, byteAt_of_owned howned]⟩

/-- Settles O10: the move is `setAccessed`, one stored byte. -/
theorem processorSetsOnlyAccessedBits : Obligations.ProcessorSetsOnlyAccessedBits := by
  intro s e rest ha hin
  have hstep : step s = processorAccess e { s with inputs := rest } := by simp only [step, if_pos ha, hin]
  rw [hstep, processorAccess]
  refine ⟨fun hopen => if_neg (by simp [hopen]), fun hinst =>
    ⟨setAccessed e { s with inputs := rest }, if_pos hinst, ?_, fun x hx => ?_, rfl⟩⟩
  · rw [setAccessed, byteAt_storeBytes]
    simp [entryAddress, descBytes]
    rfl
  · refine byteAt_setAccessed_of_ne (s := { s with inputs := rest }) e ?_
    simp only [entryAddress, descBytes]
    omega

/-- Settles O42: a faulted core runs nothing; the host's bytes lie outside its regions, and the processor sets an
accessed bit. -/
theorem faultedCoreIsStuck : Obligations.FaultedCoreIsStuck := by
  intro s t hfault hstep
  obtain ⟨ha, ⟨-, rfl⟩ | ⟨bytes, rest, i, -, -, hexec⟩ | ⟨bytes, rest, r, -, -, hreject⟩ |
    ⟨a, b, rest, -, hfree, rfl⟩ | ⟨e, rest, -, -, rfl⟩ | ⟨rest, -, rfl⟩ | ⟨a, rest, -, rfl⟩⟩ := step_cases hstep
  · exact ⟨rfl, fun _ _ => rfl, fun _ _ => rfl⟩
  · rw [exec_of_faulted (by exact hfault)] at hexec
    cases hexec
    exact ⟨rfl, fun _ _ => rfl, fun _ _ => rfl⟩
  · obtain rfl | ⟨hready, -⟩ := takeReject_cases hreject
    · exact ⟨rfl, fun _ _ => rfl, fun _ _ => rfl⟩
    · exact absurd hready hfault
  · have hsame : ∀ x, s.cfg.Owned x → byteAt (storeBytes { s with inputs := rest } a.toNat [b]) x = byteAt s x := by
      intro x hx
      have hne : x ≠ a.toNat := fun heq => hfree (heq ▸ hx)
      exact sameOutside_storeBytes { s with inputs := rest } a.toNat [b] x
        (by simp only [List.length_singleton]; omega)
    refine ⟨rfl, fun x hx => hsame x (.inr hx), fun j hj => ?_⟩
    have hin : s.cfg.Owned (s.cfg.tableBase.toNat + j) := .inl ⟨by omega, Nat.add_lt_add_left hj _⟩
    rw [coreByte_eq_of_byteAt_eq (s := s) (t := storeBytes { s with inputs := rest } a.toNat [b]) rfl hin (hsame _ hin)]
  · refine ⟨rfl, fun x hx => ?_, fun j _ => coreByte_setAccessed_and_mask e { s with inputs := rest } j⟩
    refine byteAt_setAccessed_of_not_inTable (s := { s with inputs := rest }) e fun htable => ?_
    exact hx.elim (fun hpointer => not_inTable_of_inPointer ha hpointer htable)
      (not_inFramebuffer_of_inTable ha htable)
  · exact ⟨rfl, fun _ _ => rfl, fun _ _ => rfl⟩
  · exact ⟨rfl, fun _ _ => rfl, fun _ _ => rfl⟩

end Sys2Proof.Machine
end

section
/-! The encoder unit's bytes (30_encoding.md R90 to R93, 40_descriptor_table.md R122 to R127): the entry ENCODE writes,
the same entry decoded, and the table INSTALL leaves at the spec's parameter values. -/

namespace Sys2Proof.Machine

open Sys2Proof.Config

/-! ## ENCODE (R122, R91, R125) -/

/-- An index past the table faults before the lock is looked at (R122). -/
theorem exec_encode_of_badIndex {s : State} (hready : Ready s) {idx : BitVec 3} (hidx : gdtEntries ≤ idx.toNat)
    (base : Word32) (limit : BitVec 20) (access : Byte) (flags : BitVec 4) :
    exec (.encode idx base limit access flags) s =
      .next (raise .badIndex (encode (.encode idx base limit access flags)) s) := by
  rw [exec, execEncode, accept_of_ready hready, if_pos hidx]

/-- A locked table faults (R122, R130). -/
theorem exec_encode_of_locked {s : State} (hready : Ready s) {idx : BitVec 3} (hidx : idx.toNat < gdtEntries)
    (hinst : s.installed = true) (base : Word32) (limit : BitVec 20) (access : Byte) (flags : BitVec 4) :
    exec (.encode idx base limit access flags) s =
      .next (raise .tableLocked (encode (.encode idx base limit access flags)) s) := by
  rw [exec, execEncode, accept_of_ready hready, if_neg (Nat.not_le.mpr hidx), if_pos hinst]

theorem exec_encode_of_open {s : State} (hready : Ready s) {idx : BitVec 3} (hidx : idx.toNat < gdtEntries)
    (hopen : s.installed = false) (base : Word32) (limit : BitVec 20) (access : Byte) (flags : BitVec 4) :
    exec (.encode idx base limit access flags) s =
      .next (encodeEntry idx.toNat { base := base, limit := limit, access := access, flags := flags } s) :=
  exec_of_effect hready ⟨hidx, hopen, rfl⟩

/-- Byte 6 of an entry as R90 packs it: the flags shifted over the limit's high nibble. -/
theorem descriptorBytes_eq (d : Descriptor) : descriptorBytes d =
    [d.limit.extractLsb' 0 8, d.limit.extractLsb' 8 8, d.base.extractLsb' 0 8, d.base.extractLsb' 8 8,
     d.base.extractLsb' 16 8, d.access, (d.flags.setWidth 8 <<< 4) ||| (d.limit.extractLsb' 16 4).setWidth 8,
     d.base.extractLsb' 24 8] := by
  rw [← BitVec.setWidth_append_eq_shiftLeft_setWidth_or, BitVec.setWidth_eq]
  rfl

theorem readsAs_encodeEntry (n : Nat) (d : Descriptor) (s : State) :
    ReadsAs (encodeEntry n d s) (entryAddress s.cfg n) (descriptorBytes d) := readsAs_storeBytes _ _ _

/-- Settles O11: the two faults in R122's order, else the store of the entry's eight bytes. -/
theorem encodeWritesExactlyItsEntry : Obligations.EncodeWritesExactlyItsEntry := by
  intro s idx base limit access flags hready
  refine ⟨fun hidx => exec_encode_of_badIndex hready hidx ..,
    fun hidx hinst => exec_encode_of_locked hready hidx hinst ..,
    fun hidx hopen => ⟨_, exec_encode_of_open hready hidx hopen .., ?_, sameOutside_storeBytes _ _ _, rfl⟩⟩
  have hreads := readsAs_encodeEntry idx.toNat { base := base, limit := limit, access := access, flags := flags } s
  rwa [descriptorBytes_eq] at hreads

/-- The eight bytes of a descriptor as one little-endian value (R91). -/
theorem leNat_descriptorBytes (d : Descriptor) : leNat (descriptorBytes d) =
    d.limit.toNat % 2 ^ 16 + d.base.toNat % 2 ^ 24 * 2 ^ 16 + d.access.toNat * 2 ^ 40 +
      d.limit.toNat / 2 ^ 16 * 2 ^ 48 + d.flags.toNat * 2 ^ 52 + d.base.toNat / 2 ^ 24 * 2 ^ 56 := by
  have hlimit := d.limit.isLt
  have hbase := d.base.isLt
  simp only [descriptorBytes, leNat, toNat_append_eq_add, BitVec.extractLsb'_toNat, Nat.shiftRight_eq_div_pow]
  omega

/-- Settles O12: the entry's bytes are the descriptor's, whose value is R91's sum. -/
theorem encodedEntryAsOneValue : Obligations.EncodedEntryAsOneValue := by
  intro s idx base limit access flags hready hidx hopen
  refine ⟨_, exec_encode_of_open hready hidx hopen .., ?_⟩
  have hbytes := coreBytes_of_readsAs (fun j hj => .inl ?_)
    (readsAs_encodeEntry idx.toNat { base := base, limit := limit, access := access, flags := flags } s)
  · exact (congrArg leNat hbytes).trans (leNat_descriptorBytes _)
  · simp only [Params.InTable, encodeEntry_cfg, entryAddress, descBytes, gdtBytes, descriptorBytes_length] at *
    omega

/-- Settles O14: DECODE's record is `decodeEntry` of the entry just encoded. -/
theorem encodeThenDecodeRoundTrips : Obligations.EncodeThenDecodeRoundTrips := by
  intro s idx base limit access flags hidx hopen hready
  exact ⟨_, _, exec_encode_of_open hready hidx hopen .., exec_of_effect (i := .decode idx) hready ⟨hidx, rfl⟩,
    congrArg some (decodeEntry_encodeEntry ..)⟩

/-! ## The installed table at the spec's values (R127, R58, R59) -/

/-- `DecodeEntry` reads the entry's eight bytes only. -/
theorem decodeEntry_eq_of_bytes {s t : State} {n : Nat} (hcfg : t.cfg = s.cfg)
    (h : ∀ j < 8, coreByte t (entryAddress s.cfg n + j) = coreByte s (entryAddress s.cfg n + j)) :
    decodeEntry n t = decodeEntry n s := by
  have h0 := h 0 (by decide)
  rw [Nat.add_zero] at h0
  simp only [decodeEntry, hcfg, h0, h 1 (by decide), h 2 (by decide), h 3 (by decide), h 4 (by decide), h 5 (by decide),
    h 6 (by decide), h 7 (by decide)]

/-- An entry whose eight bytes stand in the table decodes to its descriptor, as one just encoded does (R123). -/
theorem decodeEntry_of_readsAs {s : State} {n : Nat} {d : Descriptor} (hn : n < gdtEntries)
    (h : ReadsAs s (entryAddress s.cfg n) (descriptorBytes d)) : decodeEntry n s = d := by
  have hbytes : ∀ j < 8, coreByte (encodeEntry n d s) (entryAddress s.cfg n + j) =
      coreByte s (entryAddress s.cfg n + j) := by
    intro j hj
    refine coreByte_eq_of_byteAt_eq (encodeEntry_cfg s n d) (.inl ?_)
      ((readsAs_encodeEntry n d s j hj).trans (h j hj).symm)
    simp only [Params.InTable, entryAddress, descBytes, gdtBytes, gdtEntries] at *
    omega
  rw [← decodeEntry_eq_of_bytes (encodeEntry_cfg s n d) hbytes, decodeEntry_encodeEntry]

/-- The bytes of the installed table at a loaded entry are those of its descriptor (R127). -/
theorem installedTable_getElem? (p : Params) (e : LoadedEntry) {j : Nat} (hj : j < 8) :
    (installedTable p)[8 * e.index + j]? = (descriptorBytes (installedDescriptor p e))[j]? := by
  cases e <;> interval_cases j <;> rfl

/-- Where memory holds the installed table, a loaded entry decodes to the descriptor INSTALL gives it. -/
theorem decodeEntry_of_installedTable {s : State} (h : ReadsAs s s.cfg.tableBase.toNat (installedTable s.cfg))
    (e : LoadedEntry) : decodeEntry e.index s = installedDescriptor s.cfg e := by
  have hindex : e.index < gdtEntries := by cases e <;> decide
  refine decodeEntry_of_readsAs hindex fun j hj => ?_
  have hread := h (8 * e.index + j) (by
    have hlen : (installedTable s.cfg).length = 40 := rfl
    rw [descriptorBytes_length] at hj
    rw [hlen]
    simp only [gdtEntries] at hindex
    omega)
  rw [installedTable_getElem? s.cfg e hj] at hread
  rw [← hread, entryAddress, descBytes, Nat.add_assoc]

/-- Settles O16: the installed table at the spec's access bytes and flags is that list. -/
theorem installedTableIsTheSpecTable : Obligations.InstalledTableIsTheSpecTable := by
  intro s ha ⟨_, _, _, _, hkcode, hkdata, hucode, hudata, hflags⟩ hready hopen
  obtain ⟨t, ht, htable, -⟩ := (installBuildsTheTableAndRequestsItsLoad s ha hready).2 hopen
  refine ⟨t, ht, ?_⟩
  simp only [installedTable, installedDescriptor, LoadedEntry.access, hkcode, hkdata, hucode, hudata, hflags] at htable
  exact htable

/-- Settles O17: a loaded entry decodes to INSTALL's descriptor, whose fields and bits are read off at the spec's
values. -/
theorem installedTableIsFlat : Obligations.InstalledTableIsFlat := by
  intro s ha ⟨_, _, _, _, hkcode, hkdata, hucode, hudata, hflags⟩ hready hopen
  obtain ⟨t, ht, htable, -, -, hframe⟩ := (installBuildsTheTableAndRequestsItsLoad s ha hready).2 hopen
  have hcfg : t.cfg = s.cfg := by rw [hframe]
  refine ⟨t, ht, fun e => ?_⟩
  rw [decodeEntry_of_installedTable (hcfg ▸ htable) e, hcfg]
  cases e <;>
    simp only [installedDescriptor, LoadedEntry.access, hkcode, hkdata, hucode, hudata, hflags] <;>
    decide

end Sys2Proof.Machine
end

section
/-! The assembler's pseudo-commands (30_encoding.md R102). -/

namespace Sys2Proof.Machine

open Sys2Proof.Config

/-- An operand past its field does not fit. -/
theorem fit_eq_none {n v : Nat} (h : 2 ^ n ≤ v) : fit n v = none := if_neg (Nat.not_lt.mpr h)

/-- Settles O48: an expansion assembles as the command it stands for, and refuses with it. -/
theorem pseudoCommandsExpand : Obligations.PseudoCommandsExpand := by
  refine ⟨fun row col ch fg bg => rfl, fun row col => rfl, fun pos hpos => ?_, fun off ch fg bg hoff => ?_, by decide⟩
  · have hassemble : assemble "MOVE_CURSOR".toList [pos] = (fit 16 pos).bind fun p => some [.moveCursor p] := rfl
    rw [hassemble, fit_eq_none hpos]
    rfl
  · have hassemble : assemble "WRITE_CELL".toList [off, ch, fg, bg] = (fit 32 off).bind fun o =>
        (fit 8 ch).bind fun c => (fit 4 fg).bind fun f => (fit 4 bg).bind fun b => some [.writeCell o c f b] := rfl
    rw [hassemble, fit_eq_none hoff]
    rfl

end Sys2Proof.Machine
end

section
/-! SCROLL, CLEAR_LINE and the admission of WRITE_STRING (41_console.md R155 to R159). -/

namespace Sys2Proof.Machine

open Sys2Proof.Config

/-! ## SCROLL and CLEAR_LINE -/

/-- Settles O21: each clause is `byteAt_scrollUp` inside or outside rows 0 to 23. -/
theorem scrollMovesEveryRowUp : Obligations.ScrollMovesEveryRowUp := by
  intro s ha hready
  have hbase : fbBase = 0xB8000 := rfl
  refine ⟨scrollUp s, exec_of_effect (i := .scroll) hready rfl, fun j hj => ?_, fun j hj => ?_, fun x hx => ?_, rfl⟩
  · rw [byteAt_scrollUp ha, if_pos ⟨by omega, by omega⟩]
  · have haddr : 0xB8000 + 3680 + j + 160 = 0xB8000 + 3840 + j := by omega
    rw [byteAt_scrollUp ha, if_pos ⟨by omega, by omega⟩, byteAt_scrollUp ha, if_neg (by omega), haddr]
  · rw [byteAt_scrollUp ha, if_neg (by omega)]

/-- A blank line's cells hold the clear character and the clear colours (R157). -/
theorem byteAt_blankLine_cell (s : State) (r : Nat) {c : Nat} (hc : c < fbWidth) :
    byteAt (blankLine r s) (fbBase + cellBytes * linearPos r c) = some s.cfg.clearChar ∧
    byteAt (blankLine r s) (fbBase + cellBytes * linearPos r c + 1) = some (attrByte s.cfg.clearFg s.cfg.clearBg) := by
  obtain ⟨hchar, hattr⟩ := blankRow_getElem? s.cfg c hc
  have haddr : fbBase + cellBytes * linearPos r c = fbBase + 160 * r + 2 * c := by
    simp only [cellBytes, linearPos, fbWidth]; omega
  rw [haddr]
  simp only [fbWidth] at hc
  constructor
  · rw [byteAt_blankLine, if_pos ⟨by omega, by omega⟩, ← hchar, Nat.add_sub_cancel_left]
  · rw [byteAt_blankLine, if_pos ⟨by omega, by omega⟩, ← hattr, Nat.add_assoc, Nat.add_sub_cancel_left]

theorem sameOutside_blankLine (s : State) (r : Nat) : SameOutside s (blankLine r s) (fbBase + 160 * r) 160 := by
  intro x hx
  rw [byteAt_blankLine, if_neg (by omega)]

/-- CLEAR_LINE of a row below the grid faults (R158). -/
theorem exec_clearLine_of_range {s : State} (hready : Ready s) {row : Word32} (hrow : fbHeight ≤ row.toNat) :
    exec (.clearLine row) s = .next (raise .rowRange (encode (.clearLine row)) s) := by
  rw [exec, execClearLine, accept_of_ready hready, if_pos hrow]

/-- Settles O22: on the grid the effect is `blankLine`. -/
theorem clearLineBlanksTheRow : Obligations.ClearLineBlanksTheRow := by
  intro s row hready
  refine ⟨fun hrow => exec_clearLine_of_range hready hrow, fun hrow =>
    ⟨blankLine row.toNat s, exec_of_effect (i := .clearLine row) hready ⟨hrow, rfl⟩, fun c hc => ?_,
      sameOutside_blankLine s row.toNat, rfl⟩⟩
  obtain ⟨hchar, hattr⟩ := byteAt_blankLine_cell s row.toNat hc
  refine ⟨hchar, hattr, fun hspec => ?_⟩
  obtain ⟨-, hclear, hfg, hbg, -⟩ := hspec
  rw [hclear] at hchar
  rw [hfg, hbg] at hattr
  exact ⟨hchar, hattr⟩

/-- Settles O34: on the grid the effect is `blankLine`, which the loop leaves. -/
theorem clearLineIsTheCellLoop : Obligations.ClearLineIsTheCellLoop := by
  intro s row ha hready hrow
  exact exec_of_effect hready ⟨hrow, clearLineLoop_eq_blankLine ha hrow⟩

/-! ## The admission of WRITE_STRING (R159) -/

/-- The bytes at `a`, each with a value, as a list. -/
theorem exists_bytes_of_ne_none {s : State} {a n : Nat} (h : ∀ x, a ≤ x → x < a + n → byteAt s x ≠ none) :
    ∃ bs : List Byte, bs.length = n ∧ ∀ j < n, byteAt s (a + j) = bs[j]? := by
  refine ⟨(List.range n).map fun j => (byteAt s (a + j)).getD 0#8, by simp, fun j hj => ?_⟩
  obtain ⟨b, hb⟩ := Option.ne_none_iff_exists'.mp (h (a + j) (by omega) (by omega))
  simp [hj, hb]

/-- A string of at least one byte is admitted where it stays in the address space, meets no core-owned region and holds
a value everywhere. -/
theorem admitBuffer_ne_none_iff {s : State} (ha : s.cfg.Admitted) {buf len : Nat} (hlen : 0 < len) :
    admitBuffer s buf len ≠ none ↔ buf + len ≤ addrSpace ∧
      (∀ x, buf ≤ x → x < buf + len → ¬ s.cfg.Owned x) ∧ ∀ x, buf ≤ x → x < buf + len → byteAt s x ≠ none := by
  rw [Option.ne_none_iff_exists']
  constructor
  · rintro ⟨bs, hbs⟩
    obtain ⟨hspace, hfree, hbslen, hreads⟩ := (admitBuffer_eq_some ha hlen).mp hbs
    refine ⟨hspace, hfree, fun x hlo hhi hnone => ?_⟩
    have hread := hreads (x - buf) (by omega)
    rw [Nat.add_sub_cancel' hlo, hnone, eq_comm, List.getElem?_eq_none_iff] at hread
    omega
  · rintro ⟨hspace, hfree, hvalue⟩
    obtain ⟨bs, hbslen, hreads⟩ := exists_bytes_of_ne_none hvalue
    exact ⟨bs, (admitBuffer_eq_some ha hlen).mpr ⟨hspace, hfree, hbslen, hreads⟩⟩

/-- The three causes of `BUFFER_RANGE`, as R159 lists them. -/
theorem admitBuffer_eq_none_iff {s : State} (ha : s.cfg.Admitted) {buf len : Nat} :
    admitBuffer s buf len = none ↔ 0 < len ∧ (0xFFFFFFFF < buf + len - 1 ∨
      (∃ a, buf ≤ a ∧ a < buf + len ∧ s.cfg.Owned a) ∨ (∃ a, buf ≤ a ∧ a < buf + len ∧ byteAt s a = none)) := by
  obtain rfl | hlen := Nat.eq_zero_or_pos len
  · simp [admitBuffer]
  constructor
  · refine fun h => ⟨hlen, ?_⟩
    by_contra hcause
    rw [not_or, not_or] at hcause
    obtain ⟨hrange, howned, hnone⟩ := hcause
    exact (admitBuffer_ne_none_iff ha hlen).mpr ⟨by simp only [addrSpace]; omega,
      fun x hlo hhi hx => howned ⟨x, hlo, hhi, hx⟩, fun x hlo hhi hx => hnone ⟨x, hlo, hhi, hx⟩⟩ h
  · rintro ⟨-, hcause⟩
    by_contra hadmit
    obtain ⟨hspace, hfree, hvalue⟩ := (admitBuffer_ne_none_iff ha hlen).mp hadmit
    obtain hrange | ⟨a, hlo, hhi, howned⟩ | ⟨a, hlo, hhi, hnone⟩ := hcause
    · simp only [addrSpace] at hspace
      omega
    · exact hfree a hlo hhi howned
    · exact hvalue a hlo hhi hnone

/-- An admitted string is the bytes memory holds at its buffer (R159). -/
theorem readsAs_of_admitBuffer {s : State} (ha : s.cfg.Admitted) {buf len : Nat} {bs : List Byte}
    (h : admitBuffer s buf len = some bs) : bs.length = len ∧ ReadsAs s buf bs := by
  obtain rfl | hlen := Nat.eq_zero_or_pos len
  · obtain rfl : [] = bs := by simpa [admitBuffer] using h
    exact ⟨rfl, fun j hj => absurd hj (Nat.not_lt_zero j)⟩
  · obtain ⟨-, -, hbslen, hreads⟩ := (admitBuffer_eq_some ha hlen).mp h
    exact ⟨hbslen, fun j hj => hreads j (hbslen ▸ hj)⟩

/-- A buffer that is not admitted faults (R159). -/
theorem exec_writeString_of_not_admitted {s : State} (hready : Ready s) {buf len : Word32}
    (h : admitBuffer s buf.toNat len.toNat = none) (fg bg : BitVec 4) :
    exec (.writeString buf len fg bg) s = .next (raise .bufferRange (encode (.writeString buf len fg bg)) s) := by
  rw [exec, execWriteString, accept_of_ready hready, h]

/-- Settles O23: the causes are those of a buffer that is not admitted; an admitted one is read and processed. -/
theorem writeStringAdmitsOrFaults : Obligations.WriteStringAdmitsOrFaults := by
  intro s buf len fg bg ha hready
  rw [← admitBuffer_eq_none_iff ha]
  refine ⟨fun hnone => exec_writeString_of_not_admitted hready hnone fg bg, fun hadmit => ?_⟩
  obtain ⟨bs, hbs⟩ := Option.ne_none_iff_exists'.mp hadmit
  obtain ⟨hlen, hreads⟩ := readsAs_of_admitBuffer ha hbs
  exact ⟨bs, hlen, hreads, exec_of_effect hready ⟨bs, hbs, rfl⟩⟩

/-- Settles O24: a faulted core takes no command, and a ready one runs no pass. -/
theorem emptyStringChangesNothing : Obligations.EmptyStringChangesNothing := by
  intro s buf fg bg
  by_cases hready : s.fault = 0#4
  · exact exec_of_effect hready ⟨[], rfl, rfl⟩
  · exact exec_of_faulted hready _

end Sys2Proof.Machine
end

section
/-! The passes of WRITE_STRING (41_console.md R160 to R168). -/

namespace Sys2Proof.Machine

open Sys2Proof.Config

/-! ## Two strings in turn (R162) -/

theorem breaks_of_pairs {b n : Byte} (h : Pairs b n) : Breaks b ∧ Breaks n := by
  obtain ⟨rfl, rfl⟩ | ⟨rfl, rfl⟩ := h <;> decide

/-- Settles O28: by the recursion of the passes; the pass over the first part's last byte sees the second part's first
byte, and makes no pair of the two. -/
theorem stringsContinueWhereTheLastEnded : Obligations.StringsContinueWhereTheLastEnded := by
  intro fg bg bs cs s hcut
  induction bs, s using stringPasses.induct (fg := fg) (bg := bg) with
  | case1 s => rfl
  | case2 b s hbreak =>
    have hpair : ¬ cs.head?.any (isPair b) = true := by
      intro hany
      obtain ⟨n, hn, hbn⟩ := (Option.any_eq_true _ _).mp hany
      exact hcut b n rfl hn ((isPair_iff b n).mp hbn)
    rw [List.singleton_append, stringPasses_cons, if_pos hbreak, if_neg hpair]
    simp [stringPasses, hbreak]
  | case3 b s hprint =>
    rw [List.singleton_append, stringPasses_cons, if_neg hprint]
    simp [stringPasses, hprint]
  | case4 b n rest s hbreak hpair ih =>
    simp only [List.cons_append, stringPasses, if_pos hbreak, if_pos hpair]
    exact ih fun b' n' hlast hhead => hcut b' n' (by simp [List.getLast?_cons, hlast]) hhead
  | case5 b n rest s hbreak hpair ih =>
    simp only [List.cons_append, stringPasses, if_pos hbreak, if_neg hpair] at ih ⊢
    exact ih fun b' n' hlast hhead => hcut b' n' (by simpa [List.getLast?_cons] using hlast) hhead
  | case6 b n rest s hprint ih =>
    simp only [List.cons_append, stringPasses, if_neg hprint] at ih ⊢
    exact ih fun b' n' hlast hhead => hcut b' n' (by simpa [List.getLast?_cons] using hlast) hhead

section
variable {s : State} (fg bg : BitVec 4) (b : Byte)

theorem stringPasses_append_print (bs : List Byte) (hb : ¬ Breaks b) (s : State) :
    stringPasses fg bg (bs ++ [b]) s = printPass fg bg b (stringPasses fg bg bs s) := by
  rw [stringsContinueWhereTheLastEnded fg bg bs [b] s fun _ n _ hhead hpair => ?_]
  · exact if_neg (by rwa [isBreak_iff])
  · obtain rfl : b = n := by simpa using hhead
    exact hb (breaks_of_pairs hpair).2

/-! ## A printable byte (R163 to R167) -/

/-- What a printable pass does before the column step: the cell, then the cursor (R163). -/
def printed (s : State) : State :=
  cursorTo (BitVec.ofNat 16 (linearPos s.row.toNat s.col.toNat))
    (storeBytes s (fbBase + cellBytes * linearPos s.row.toNat s.col.toNat) [b, attrByte fg bg])

theorem printPass_eq_printed (hs : PassReady s) :
    printPass fg bg b s = overflowCheck (advance (printed fg bg b s)) := printPass_eq hs fg bg b

theorem printed_row : (printed fg bg b s).row = s.row := by simp [printed]

theorem printed_col : (printed fg bg b s).col = s.col := by simp [printed]

theorem overflowCheck_of_row_lt (h : s.row.toNat < fbHeight) : overflowCheck s = s := if_neg (Nat.not_le.mpr h)

/-- Before the last column the pass steps the column (R164). -/
theorem printPass_of_col_lt (hs : PassReady s) (hcol : s.col.toNat < 79) :
    printPass fg bg b s = { printed fg bg b s with col := s.col + 1#32 } := by
  have hne : (printed fg bg b s).col + 1#32 ≠ BitVec.ofNat 32 fbWidth := by
    rw [printed_col]
    intro heq
    have := congrArg BitVec.toNat heq
    simp only [fbWidth] at this
    bv_omega
  rw [printPass_eq_printed fg bg b hs, advance, if_neg hne, printed_col, overflowCheck_of_row_lt]
  simpa only [printed_row] using hs.2.1

/-- At the last column it wraps (R164). -/
theorem advance_printed_of_last_col (hcol : s.col = 79#32) :
    advance (printed fg bg b s) = { printed fg bg b s with col := 0#32, row := s.row + 1#32 } := by
  have heq : (printed fg bg b s).col + 1#32 = BitVec.ofNat 32 fbWidth := by rw [printed_col, hcol]; rfl
  rw [advance, if_pos heq, printed_row]

theorem printPass_of_last_col (hs : PassReady s) (hcol : s.col = 79#32) (hrow : s.row.toNat < 24) :
    printPass fg bg b s = { printed fg bg b s with col := 0#32, row := s.row + 1#32 } := by
  have hnext : (s.row + 1#32).toNat < fbHeight := by simp only [fbHeight]; bv_omega
  rw [printPass_eq_printed fg bg b hs, advance_printed_of_last_col fg bg b hcol]
  exact overflowCheck_of_row_lt hnext

/-- From the last cell it scrolls once and clears row 24 (R165, R168). -/
theorem printPass_of_last_cell (hs : PassReady s) (hcol : s.col = 79#32) (hrow : s.row = 24#32) :
    printPass fg bg b s = { blankLine 24 (scrollUp (printed fg bg b s)) with col := 0#32, row := 24#32 } := by
  have hfull : fbHeight ≤ (s.row + 1#32).toNat := by rw [hrow]; decide
  rw [printPass_eq_printed fg bg b hs, advance_printed_of_last_col fg bg b hcol, overflowCheck, if_pos hfull]
  rfl

/-- WRITE_STRING of one placed printable byte is its pass. -/
theorem exec_writeString_of_print {buf : Word32} (ha : s.cfg.Admitted) (hready : Ready s) (hb : ¬ Breaks b)
    (hplaced : Placed s buf [b]) : exec (.writeString buf 1#32 fg bg) s = .next (printPass fg bg b s) := by
  have hpass : stringPasses fg bg [b] s = printPass fg bg b s := if_neg (by rwa [isBreak_iff])
  rw [exec_writeString_of_placed ha hready rfl hplaced, hpass]

end

/-- Settles O26: the pass by where its cell lies. -/
theorem printablePassWritesItsCell : Obligations.PrintablePassWritesItsCell := by
  intro s buf b fg bg ha hready hrow hcol hb hplaced
  have hs : PassReady s := ⟨ha, hrow, hcol⟩
  simp only
  rw [exec_writeString_of_print fg bg b ha hready hb hplaced]
  by_cases hlt : s.col.toNat < 79
  · rw [if_pos hlt, printPass_of_col_lt fg bg b hs hlt]
    rfl
  · have hlast : s.col = 79#32 := BitVec.eq_of_toNat_eq (by simp only [BitVec.toNat_ofNat]; omega)
    rw [if_neg hlt]
    by_cases hrlt : s.row.toNat < 24
    · rw [if_pos hrlt, printPass_of_last_col fg bg b hs hlast hrlt]
      rfl
    · have hrlast : s.row = 24#32 := BitVec.eq_of_toNat_eq (by simp only [BitVec.toNat_ofNat]; omega)
      rw [if_neg hrlt, printPass_of_last_cell fg bg b hs hlast hrlast]
      rfl

/-- Two line breaks that make no pair are two passes; a pair is one (R162). -/
theorem stringPasses_two_breaks {b n : Byte} (hb : Breaks b) (hn : Breaks n) (fg bg : BitVec 4) (s : State) :
    stringPasses fg bg [b, n] s = if Pairs b n then breakPass s else breakPass (breakPass s) := by
  simp only [stringPasses, (isBreak_iff b).mpr hb, (isBreak_iff n).mpr hn, if_true, isPair_iff]

/-- Settles O27: one pass or two, each from a row above the last or from the last. -/
theorem pairsOfLineBreaksAdvanceOnce : Obligations.PairsOfLineBreaksAdvanceOnce := by
  intro s buf b n fg bg ha hready hrow hb hn hplaced
  rw [exec_writeString_of_placed ha hready rfl hplaced, stringPasses_two_breaks hb hn]
  have hlast : ¬ s.row.toNat < 24 → s.row = 24#32 := fun h =>
    BitVec.eq_of_toNat_eq (by simp only [BitVec.toNat_ofNat]; omega)
  by_cases hpair : Pairs b n
  · rw [if_pos hpair, if_pos hpair]
    by_cases hlt : s.row.toNat < 24
    · rw [if_pos hlt, breakPass_of_row_lt hlt]
    · rw [if_neg hlt, breakPass_of_last_row (hlast hlt)]
  · rw [if_neg hpair, if_neg hpair]
    by_cases hlt : s.row.toNat < 23
    · have hnext : (s.row + 1#32).toNat < 24 := by bv_omega
      have htwo : s.row + 1#32 + 1#32 = s.row + 2#32 := by bv_omega
      rw [if_pos hlt, breakPass_of_row_lt (s := s) (by omega), breakPass_of_row_lt (by exact hnext), ← htwo]
    · rw [if_neg hlt]
      by_cases heq : s.row.toNat = 23
      · have hnext : s.row + 1#32 = 24#32 := by bv_omega
        rw [if_pos heq, breakPass_of_row_lt (s := s) (by omega), breakPass_of_last_row (by exact hnext), hnext]
        rfl
      · rw [if_neg heq, breakPass_of_last_row (hlast (by omega)),
          breakPass_of_last_row (by exact hlast (by omega))]
        rfl

/-- Settles O30: the byte, stored at the last cell, moves up one row; row 24 is blanked after it. -/
theorem lastCellScrollsItsCharacter : Obligations.LastCellScrollsItsCharacter := by
  intro s buf b fg bg ha hready hrow hcol hb hplaced
  have hs : PassReady s := ⟨ha, by rw [hrow]; decide, by rw [hcol]; decide⟩
  have hprinted : printed fg bg b s = cursorTo 1999#16 (storeBytes s (fbBase + 3998) [b, attrByte fg bg]) := by
    rw [printed, hrow, hcol]; rfl
  have hcfg : (printed fg bg b s).cfg = s.cfg := by simp [printed]
  have hbytes : byteAt { blankLine 24 (scrollUp (printed fg bg b s)) with col := 0#32, row := 24#32 } =
      byteAt (blankLine 24 (scrollUp (printed fg bg b s))) := byteAt_congr rfl rfl
  have hbase : fbBase = 0xB8000 := rfl
  refine ⟨_, (exec_writeString_of_print fg bg b ha hready hb hplaced).trans
    (congrArg _ (printPass_of_last_cell fg bg b hs hcol hrow)), rfl, rfl, fun j hj => ?_, fun c hc => ?_, ?_, ?_⟩
  · have hj' : j < 2 := hj
    have haddr : 0xB8000 + 3838 + j + 160 = fbBase + 3998 + j := by omega
    rw [hbytes, byteAt_blankLine, if_neg (by omega), byteAt_scrollUp (by rwa [hcfg]), if_pos ⟨by omega, by omega⟩,
      haddr, hprinted, byteAt_cursorTo]
    exact readsAs_storeBytes s (fbBase + 3998) [b, attrByte fg bg] j hj
  · obtain ⟨hchar, hattr⟩ := byteAt_blankLine_cell (scrollUp (printed fg bg b s)) 24 hc
    rw [scrollUp_cfg, hcfg] at hchar hattr
    rw [hbytes]
    exact ⟨hchar, hattr⟩
  · simp only [blankLine_cursorHigh, blankLine_cursorLow, scrollUp_cursorHigh, scrollUp_cursorLow, hprinted,
      cursorTo_cursorHigh, cursorTo_cursorLow]
    decide
  · simp only [blankLine_trace, scrollUp_trace, hprinted, cursorTo_trace, storeBytes_trace]
    rfl

/-! ## A row of printable bytes (R164) -/

/-- Printable bytes in the same colours, as the cells they are stored in. -/
def cellsOf (attr : Byte) (bs : List Byte) : List Byte := bs.flatMap fun b => [b, attr]

theorem cellsOf_length (attr : Byte) (bs : List Byte) : (cellsOf attr bs).length = cellBytes * bs.length := by
  simp [cellsOf, cellBytes, Nat.mul_comm]

theorem cellsOf_append_singleton (attr : Byte) (bs : List Byte) (b : Byte) :
    cellsOf attr (bs ++ [b]) = cellsOf attr bs ++ [b, attr] := by
  simp [cellsOf]

theorem cellsOf_getElem? (attr : Byte) (bs : List Byte) {c : Nat} (hc : c < bs.length) :
    (cellsOf attr bs)[2 * c]? = bs[c]? ∧ (cellsOf attr bs)[2 * c + 1]? = some attr := by
  induction bs generalizing c with
  | nil => cases hc
  | cons b bs ih =>
    cases c with
    | zero => exact ⟨rfl, rfl⟩
    | succ c =>
      have htail := ih (Nat.lt_of_succ_lt_succ hc)
      simpa [cellsOf, Nat.mul_add] using htail

/-- Storing over memory that reads the same leaves memory that reads the same. -/
theorem sameMemory_storeBytes {s t : State} (h : SameMemory s t) (a : Nat) (bs : List Byte) :
    SameMemory (storeBytes s a bs) (storeBytes t a bs) := by
  intro x
  rw [byteAt_storeBytes, byteAt_storeBytes, h x]

/-- The pass over the next byte of a row stores it just after the cells before it. -/
theorem sameMemory_printed {s t : State} {bs : List Byte} (fg bg : BitVec 4) (b : Byte) (hrow : t.row = s.row)
    (hcol : t.col.toNat = bs.length)
    (h : SameMemory (storeBytes s (fbBase + rowBytes * s.row.toNat) (cellsOf (attrByte fg bg) bs)) t) :
    SameMemory (storeBytes s (fbBase + rowBytes * s.row.toNat) (cellsOf (attrByte fg bg) (bs ++ [b])))
      (printed fg bg b t) := by
  have haddr : fbBase + cellBytes * linearPos t.row.toNat t.col.toNat =
      fbBase + rowBytes * s.row.toNat + (cellsOf (attrByte fg bg) bs).length := by
    rw [cellsOf_length, hrow, hcol]
    simp only [cellBytes, linearPos, rowBytes, fbWidth]
    omega
  intro x
  rw [printed, byteAt_cursorTo, haddr, cellsOf_append_singleton, ← storeBytes_storeBytes]
  exact sameMemory_storeBytes h _ _ x

/-- After fewer than eighty printable bytes from column 0 the position is on the same row, at their count, and their
cells are stored from the row's start on. -/
theorem stringPasses_row {s : State} (hs : PassReady s) (hcol : s.col = 0#32) (fg bg : BitVec 4) (bs : List Byte)
    (hlen : bs.length < 80) (hprint : ∀ b ∈ bs, ¬ Breaks b) :
    (stringPasses fg bg bs s).row = s.row ∧ (stringPasses fg bg bs s).col.toNat = bs.length ∧
    SameMemory (storeBytes s (fbBase + rowBytes * s.row.toNat) (cellsOf (attrByte fg bg) bs))
      (stringPasses fg bg bs s) := by
  induction bs using List.reverseRecOn with
  | nil =>
    refine ⟨rfl, by rw [stringPasses, hcol]; rfl, fun x => ?_⟩
    rw [byteAt_storeBytes, if_neg (by simp [cellsOf]), stringPasses]
  | append_singleton bs b ih =>
    simp only [List.length_append, List.length_singleton] at hlen
    obtain ⟨hrow, hpos, hmem⟩ := ih (by omega) fun c hc => hprint c (List.mem_append_left _ hc)
    have hready : PassReady (stringPasses fg bg bs s) :=
      ⟨by rw [(stringPasses_frame fg bg bs s).1]; exact hs.1, stringPasses_onGrid hs.2 fg bg bs⟩
    rw [stringPasses_append_print fg bg b bs (hprint b (by simp)), printPass_of_col_lt fg bg b hready (by omega)]
    refine ⟨(printed_row fg bg b).trans hrow, ?_, sameMemory_printed fg bg b hrow hpos hmem⟩
    simp only [List.length_append, List.length_singleton]
    bv_omega

/-! ## The trace and the frame of a string -/

theorem printPass_trace_length {s : State} (hs : PassReady s) (fg bg : BitVec 4) (b : Byte) :
    (printPass fg bg b s).trace.length = s.trace.length + 4 := by
  rw [printPass_eq hs]
  simp

/-- Each printable byte sends four port writes, and no other byte emits anything (R163). -/
theorem stringPasses_trace_length {s : State} (hs : PassReady s) (fg bg : BitVec 4) (bs : List Byte) :
    (stringPasses fg bg bs s).trace.length =
      s.trace.length + 4 * (bs.filter (fun b => decide (¬ Breaks b))).length := by
  have hkeep : ∀ b, isBreak b = true → decide (¬ Breaks b) = false := fun b hb => by simp [(isBreak_iff b).mp hb]
  have hcount : ∀ b, ¬ isBreak b = true → decide (¬ Breaks b) = true := fun b hb => by
    rw [isBreak_iff] at hb
    simpa using hb
  induction bs, s using stringPasses.induct (fg := fg) (bg := bg) with
  | case1 s => rfl
  | case2 b s hbreak =>
    rw [List.filter_cons, hkeep b hbreak, if_neg Bool.false_ne_true, stringPasses, if_pos hbreak, breakPass_trace]
    rfl
  | case3 b s hprint =>
    rw [List.filter_cons, hcount b hprint, if_pos rfl, stringPasses, if_neg hprint, printPass_trace_length hs]
    rfl
  | case4 b n rest s hbreak hpair ih =>
    have hn : isBreak n = true := (isBreak_iff n).mpr (breaks_of_pairs ((isPair_iff b n).mp hpair)).2
    simp only [stringPasses, if_pos hbreak, if_pos hpair, ih (breakPass_ready hs), breakPass_trace, List.filter_cons,
      hkeep b hbreak, hkeep n hn, Bool.false_eq_true, if_false]
  | case5 b n rest s hbreak hpair ih =>
    rw [List.filter_cons, hkeep b hbreak, if_neg Bool.false_ne_true, stringPasses, if_pos hbreak, if_neg hpair,
      ih (breakPass_ready hs), breakPass_trace]
  | case6 b n rest s hprint ih =>
    rw [List.filter_cons, hcount b hprint, if_pos rfl, stringPasses, if_neg hprint,
      ih (printPass_ready hs fg bg b), printPass_trace_length hs, List.length_cons]
    omega

/-- Settles O29: seventy-nine bytes stay on the row, and the last one wraps. -/
theorem fullRowWrapsToTheNext : Obligations.FullRowWrapsToTheNext := by
  intro s buf bs fg bg ha hready hrow hcol hlen hprint hplaced
  have hs : PassReady s := ⟨ha, by simp only [fbHeight]; omega, by rw [hcol]; decide⟩
  have htrace := stringPasses_trace_length hs fg bg bs
  rw [List.filter_eq_self.mpr (fun b hb => decide_eq_true (hprint b hb)), hlen] at htrace
  obtain rfl | ⟨cs, b, rfl⟩ := List.eq_nil_or_concat' bs
  · cases hlen
  have hcs : cs.length = 79 := by simpa using hlen
  obtain ⟨hrow', hcol', hmem⟩ := stringPasses_row hs hcol fg bg cs (by omega)
    fun c hc => hprint c (List.mem_append_left _ hc)
  have hready' : PassReady (stringPasses fg bg cs s) :=
    ⟨by rw [(stringPasses_frame fg bg cs s).1]; exact ha, stringPasses_onGrid hs.2 fg bg cs⟩
  have hfinal := stringPasses_append_print fg bg b cs (hprint b (by simp)) s
  rw [printPass_of_last_col fg bg b hready' (BitVec.eq_of_toNat_eq (hcol'.trans hcs)) (by rw [hrow']; exact hrow)]
    at hfinal
  have hcells := cellsOf_length (attrByte fg bg) (cs ++ [b])
  rw [hlen] at hcells
  have hread : ∀ x, byteAt (stringPasses fg bg (cs ++ [b]) s) x =
      byteAt (storeBytes s (fbBase + rowBytes * s.row.toNat) (cellsOf (attrByte fg bg) (cs ++ [b]))) x := fun x => by
    rw [hfinal]
    exact sameMemory_printed fg bg b hrow' hcol' hmem x
  refine ⟨_, exec_writeString_of_placed ha hready hlen hplaced fg bg, by rw [hfinal, hrow'], by rw [hfinal],
    fun c hc => ?_, fun x hx => ?_, htrace⟩
  · obtain ⟨hchar, hattr⟩ := cellsOf_getElem? (attrByte fg bg) (cs ++ [b]) (hlen.symm ▸ hc)
    have haddr : 0xB8000 + 2 * (s.row.toNat * 80 + c) = fbBase + rowBytes * s.row.toNat + 2 * c := by
      simp only [fbBase, rowBytes]; omega
    have hin : 2 * c + 1 < (cellsOf (attrByte fg bg) (cs ++ [b])).length := by simp only [cellBytes] at hcells; omega
    have hreads := readsAs_storeBytes s (fbBase + rowBytes * s.row.toNat) (cellsOf (attrByte fg bg) (cs ++ [b]))
    rw [hread, hread, haddr, Nat.add_assoc _ (2 * c) 1]
    exact ⟨(hreads (2 * c) (by omega)).trans hchar, (hreads (2 * c + 1) hin).trans hattr⟩
  · rw [hread]
    refine sameOutside_storeBytes s _ _ x ?_
    rw [hcells]
    exact hx

/-- Settles O31: the passes change what `stringPasses_frame` leaves out, write the framebuffer only, and send four port
writes for each printable byte. -/
theorem writeStringFrame : Obligations.WriteStringFrame := by
  intro s buf len bs fg bg ha hready hrow hcol hlen hplaced
  have hs : PassReady s := ⟨ha, hrow, hcol⟩
  obtain ⟨hcfg, hinstalled, hfault, hline, hresp, hinputs, hread⟩ := stringPasses_frame fg bg bs s
  refine ⟨_, exec_writeString_of_placed ha hready hlen hplaced fg bg, ?_,
    fun a hx => byteAt_stringPasses_of_outside hs fg bg bs hx, stringPasses_trace_length hs fg bg bs⟩
  exact State.ext hcfg rfl rfl hinstalled hfault hline hresp rfl rfl rfl rfl rfl hinputs hread

end Sys2Proof.Machine
end
